-- ==== Sys2Proof/Word.lean ====
section
/-! DEFINITION. The word types of the block: 32-bit command and response words (30_encoding.md R60, R66),
and bit sequences (00_scope.md R10).
An N_MAX-bit vector (IN or OUT) is held by its VALUE, a natural number: vector bit i is bit i of the number (20_memory.md
R42, R43; notes/assumptions/8.md). Its width is the open parameter N_MAX, so it is no width of a type; `vecFits` of
Safety.lean says it. -/

namespace Sys2Proof

/-- A command word CMD or a response word RES0, RES1: 32 bits, bit 31 the most significant (30 R60). -/
abbrev Word := BitVec 32

/-- A bit sequence, element 0 first (00 R10). A bit is a `Bool`, so a non-binary element cannot be spelled
(60 R165, 93 I1). -/
abbrev BitSeq := List Bool

end Sys2Proof
end

