-- ==== Sys2Proof/Config.lean ====
section
/-! DEFINITION. What the hardware instance fixes: the open parameter N_MAX (00_scope.md R6).
LATENCY (00 R9) is no constant here: it is the number of idle moves of the schedule (State.lean).
HOST_MAP (20_memory.md R48) is read by no rule and is not modelled. -/

namespace Sys2Proof

/-- DESIGN CHOICE (notes/assumptions/1.md, safe): how far N_MAX lies above its least value 107. It has no body, so no
proof can know it, and every value the spec allows is one of its 65429 values. -/
opaque Config.nMaxOffset : Fin 65429

/-- N_MAX, the largest codeword length and the width of IN and OUT: any value with 107 <= N_MAX <= 65535
(00 R6). -/
def Config.nMax : Nat := Config.nMaxOffset.val + 107

/-- 00 R6: the bounds of N_MAX. -/
theorem Config.nMax_bounds : 107 ≤ Config.nMax ∧ Config.nMax ≤ 65535 := by
  have h := Config.nMaxOffset.isLt
  unfold Config.nMax
  omega

end Sys2Proof
end

