-- ==== Sys2Proof/Syntax.lean ====
section
/-! DEFINITION. The four commands of the block (30_encoding.md R61, opcode_table.json), whole: there are no
others (30 R72, R77). -/

namespace Sys2Proof

/-- A decoded command word (30 R72). LEN and PIDX are natural numbers (00 R11, 30 R63, R64); the operand
sequence is no part of the word: it arrives on IN beside it (30 R60). -/
inductive Instr where
  /-- PCOUNT, k = LEN (40 R91). -/
  | pcount (k : Nat)
  /-- PEVAL, p = PIDX and n = LEN (41 R101). -/
  | peval (p n : Nat)
  /-- ENCODE, k = LEN (42 R114). -/
  | encode (k : Nat)
  /-- DECODE, n = LEN (43 R139). -/
  | decode (n : Nat)
  deriving DecidableEq, Repr

end Sys2Proof
end

