-- ==== Sys2Proof/WellFormed.lean ====
section
/-! DEFINITION. Which commands a 32-bit word can spell: LEN has 16 bits and PIDX has 8 (30_encoding.md R60,
R63, R64). A length or an index beyond the operation's own bound is well formed: it completes with an error
status (60_exceptions.md R161). -/

namespace Sys2Proof

/-- LEN is a natural number 0..65535 (30 R64). -/
abbrev lenFits (l : Nat) : Bool := decide (l < 65536)

/-- PIDX is a natural number 0..255 (30 R63). -/
abbrev pidxFits (p : Nat) : Bool := decide (p < 256)

/-- The command fits its fields. -/
def Instr.wf : Instr → Bool
  | .pcount k => lenFits k
  | .peval p n => pidxFits p && lenFits n
  | .encode k => lenFits k
  | .decode n => lenFits n

end Sys2Proof
end

