-- ==== Sys2Proof/Decode.lean ====
section
/-! DEFINITION. Command words: the fields of CMD (30_encoding.md R60), the total decoder (R72), the opcode table's
match and mask rows (R72), and the encoder (R75). -/

namespace Sys2Proof

/-- CMD[1:0], the operation select (30 R60, R61). -/
def opField (cmd : Word) : BitVec 2 := cmd.extractLsb' 0 2

/-- CMD[7:2], reserved (30 R60, R62). -/
def rsvField (cmd : Word) : BitVec 6 := cmd.extractLsb' 2 6

/-- PIDX = zext(CMD[15:8]), a natural number (30 R63). -/
def pidxField (cmd : Word) : Nat := (cmd.extractLsb' 8 8).toNat

/-- LEN = zext(CMD[31:16]), a natural number (30 R64). -/
def lenField (cmd : Word) : Nat := (cmd.extractLsb' 16 16).toNat

/-- Why a word is no command (30 R62, R63, R72). Both causes complete with the same status BAD_COMMAND (60 R161). -/
inductive BadCommand where
  /-- CMD[7:2] is not zero. -/
  | reservedNonzero
  /-- CMD[15:8] is not zero and OP is not PEVAL. -/
  | indexNonzero
  deriving DecidableEq, Repr

/-- What a command word selects: exactly one outcome (30 R72). -/
inductive CmdOutcome where
  | instr (i : Instr)
  | badCommand (why : BadCommand)
  deriving DecidableEq, Repr

/-- `decode_cmd` of 30 R72, its tests in the rule's order. Total on every 32-bit word. -/
def decode (cmd : Word) : CmdOutcome :=
  if rsvField cmd ≠ 0#6 then .badCommand .reservedNonzero
  else if opField cmd ≠ 0b01#2 ∧ pidxField cmd ≠ 0 then .badCommand .indexNonzero
  else if opField cmd = 0b00#2 then .instr (.pcount (lenField cmd))
  else if opField cmd = 0b01#2 then .instr (.peval (pidxField cmd) (lenField cmd))
  else if opField cmd = 0b10#2 then .instr (.encode (lenField cmd))
  else .instr (.decode (lenField cmd))

/-- A row of the opcode table: a word w is of the row when `w &&& mask = pattern` (30 R72). -/
structure OpcodeRow where
  mnemonic : String
  pattern : Word
  mask : Word
  deriving DecidableEq, Repr

/-- The row of a command in opcode_table.json. -/
def rowOf : Instr → OpcodeRow
  | .pcount _ => ⟨"PCOUNT", 0x00000000#32, 0x0000FFFF#32⟩
  | .peval _ _ => ⟨"PEVAL", 0x00000001#32, 0x000000FF#32⟩
  | .encode _ => ⟨"ENCODE", 0x00000002#32, 0x0000FFFF#32⟩
  | .decode _ => ⟨"DECODE", 0x00000003#32, 0x0000FFFF#32⟩

/-- The four rows, in the table's order. -/
def opcodeRows : List OpcodeRow :=
  [rowOf (.pcount 0), rowOf (.peval 0 0), rowOf (.encode 0), rowOf (.decode 0)]

/-- The word matches the row. -/
def OpcodeRow.fits (row : OpcodeRow) (cmd : Word) : Bool := decide (cmd &&& row.mask = row.pattern)

/-- A command word from its fields, RSV zero (30 R60). -/
def cmdWord (len pidx : Nat) (op : BitVec 2) : Word :=
  BitVec.ofNat 16 len ++ BitVec.ofNat 8 pidx ++ 0#6 ++ op

/-- The word of a well-formed command (30 R75): `(k << 16) | op`, for PEVAL `(n << 16) | (p << 8) | op`. -/
def encode : Instr → Word
  | .pcount k => cmdWord k 0 0b00#2
  | .peval p n => cmdWord n p 0b01#2
  | .encode k => cmdWord k 0 0b10#2
  | .decode n => cmdWord n 0 0b11#2

/-- The command word of a table word: its `nbits` bits, every bit above them 0. CMD has no byte order (20 R42),
so bit i of the table is bit i of CMD. -/
def tableWord (nbits w : Nat) : Word := BitVec.ofNat 32 (w % 2 ^ nbits)

/-- The command `decode` reads from a table word, none where it answers BAD_COMMAND. -/
def decodeTableWord (nbits w : Nat) : Option Instr :=
  match decode (tableWord nbits w) with
  | .instr i => some i
  | .badCommand _ => none

end Sys2Proof
end

