-- ==== Sys2Proof/Machine/State.lean ====
section
/-! DEFINITION. The state of the block and of the host that drives it (10_state.md, 20_memory.md R40,
00_scope.md R17), the reasons a step can stop, and the state after reset (10 R30, 70_reset_and_hazards.md R190). -/

namespace Sys2Proof.Machine

/-- What one command is: the word CMD and the operand vector IN, by its value (30 R60, 20 R43). -/
structure Command where
  cmd : Word
  inp : Nat
  deriving DecidableEq, Repr

/-- What one response is: RES0, RES1 and the result vector OUT, by its value (20 R40, 30 R66..R68). -/
structure Response where
  res0 : Word
  res1 : Word
  out : Nat
  deriving DecidableEq, Repr

/-- The interface phase (10 R23). BUSY holds the captured CMD and IN; READY holds no operand and no result. -/
inductive Phase where
  | ready
  | busy (held : Command)
  deriving DecidableEq, Repr

/-- One entry of the schedule: who moves in a step, and what the host does (00 R17).
DESIGN CHOICE (notes/assumptions/2.md, 3.md, safe): the order in which the two agents move is plain data. -/
inductive Move where
  /-- The block moves. -/
  | block
  /-- Time passes and the block does not move: the delay of LATENCY (00 R9, 10 R23). -/
  | blockIdle
  /-- The host puts a command on the command port, in place of what stood there (20 R40, 70 R194). -/
  | present (c : Command)
  /-- The host takes its offer off the command port. -/
  | withdraw
  /-- The block is reset (70 R190). -/
  | reset
  deriving DecidableEq, Repr

structure State where
  /-- PHASE, with the captured CMD and IN while BUSY (10 R23). -/
  phase : Phase
  /-- The command port: the command the host presents, if any (20 R40). -/
  cmdPort : Option Command
  /-- The response port: the response last delivered, none between reset and the first one (20 R40, 70 R192). No rule says
  how long a response stays. DESIGN CHOICE (notes/assumptions/18.md, unsafe): until the next delivery or a reset. -/
  respPort : Option Response
  /-- The model's record of the observation of a run: the responses delivered, in order (70 R200). -/
  observed : List Response
  /-- The model's schedule: one entry a step; when it is empty the block moves. -/
  moves : List Move
  deriving DecidableEq, Repr

/-- Why the machine stops. The block itself never does (60 R160): `step` raises neither. -/
inductive Fault where
  /-- Raised by `exec` on a state whose PHASE is READY: no command is held, so there is nothing to answer
  (10 R23, R30). Safe: no run reaches it. -/
  | noCommandHeld
  /-- Raised by `readResponse`, the host's read of the response port, between reset and the first response: a host
  error, not a value (70 R192, 93 I7). Safe: the model gives the fields no value there. -/
  | responseUndefined
  deriving DecidableEq, Repr

/-- Why an instruction has no meaning. -/
inductive Refusal where
  /-- Raised by an arm of `exec` whose instruction has no meaning yet: none is left. Safe. -/
  | notModelled (mnemonic : String)
  deriving DecidableEq, Repr

/-- The machine right after reset (10 R30, 70 R190): PHASE is READY, no command is held, and the response fields have no
value. DESIGN CHOICE (notes/assumptions/3.md): nothing is presented, nothing was observed, and the schedule is
empty. -/
def State.reset : State where
  phase := .ready
  cmdPort := none
  respPort := none
  observed := []
  moves := []

end Sys2Proof.Machine
end

