-- ==== Sys2Proof/Machine/Operands.lean ====
section
/-! DEFINITION. Operand and result transport: a sequence from a vector and a vector from a sequence
(20_memory.md R42, R43, R44; 30_encoding.md R65, R68). -/

namespace Sys2Proof.Machine

/-- `opnd = [IN[0], ..., IN[LEN-1]]` (30 R65). Bits of IN at or above LEN are no part of it (20 R44). -/
def operand (inp : Nat) (len : Nat) : BitSeq := (List.range len).map (fun i => inp.testBit i)

/-- The value of the vector that carries a sequence from bit 0 on, every other bit 0 (20 R43, 30 R68). -/
def seqValue : BitSeq → Nat
  | [] => 0
  | b :: c => b.toNat + 2 * seqValue c

/-- The byte of a vector at a byte offset, where a host keeps the vector in byte-addressed memory: vector bit i is
bit i mod 8 of byte i div 8. A convention for hosts that binds nothing inside the block (20 R43). -/
def hostByte (v : Nat) (offset : Nat) : BitVec 8 := BitVec.ofNat 8 (v / 2 ^ (8 * offset))

end Sys2Proof.Machine
end

