-- ==== Sys2Proof/Machine/Flags.lean ====
section
/-! DEFINITION. The response words: STATUS and OUTCOME codes (30_encoding.md R69, R70), the fields of RES0 (R66), RES1
(R67) and OUT (R68), the response of an operation (00_scope.md R14) and the error response
(60_exceptions.md R163). -/

namespace Sys2Proof.Machine

/-- The completion status (30 R70). -/
inductive Status where
  | ok | badCommand | badLength | badIndex
  deriving DecidableEq, Repr

/-- The STATUS code (30 R70). -/
def statusCode : Status → BitVec 2
  | .ok => 0b00#2
  | .badCommand => 0b01#2
  | .badLength => 0b10#2
  | .badIndex => 0b11#2

/-- The decode outcome (30 R69). -/
inductive DecodeOutcome where
  | none | clean | corrected | uncorrectable
  deriving DecidableEq, Repr

/-- The OUTCOME code (30 R69). -/
def outcomeCode : DecodeOutcome → BitVec 2
  | .none => 0b00#2
  | .clean => 0b01#2
  | .corrected => 0b10#2
  | .uncorrectable => 0b11#2

/-- The result fields of a response. Every field not listed is 0 (00 R14). -/
structure ResultFields where
  status : Status := .ok
  clean : Bool := false
  outcome : DecodeOutcome := .none
  pbit : Bool := false
  r : Nat := 0
  outLen : Nat := 0
  syndrome : Nat := 0
  out : BitSeq := []
  deriving DecidableEq, Repr

/-- RES0 from its fields, RSV zero (30 R66). -/
def packRes0 (f : ResultFields) : Word :=
  BitVec.ofNat 16 f.outLen ++ 0#5 ++ BitVec.ofNat 5 f.r ++ BitVec.ofBool f.pbit ++ outcomeCode f.outcome
    ++ BitVec.ofBool f.clean ++ statusCode f.status

/-- `respond(...)` (00 R14): the response that carries the fields (30 R66, R67, R68). -/
def respond (f : ResultFields) : Response where
  res0 := packRes0 f
  res1 := BitVec.ofNat 32 f.syndrome
  out := seqValue f.out

/-- `raise <STATUS>()` (00 R14): RES0 = zext(STATUS), RES1 and OUT zero (60 R163). -/
def errorResponse (st : Status) : Response where
  res0 := (statusCode st).setWidth 32
  res1 := 0#32
  out := 0

/-- RES0[1:0] (30 R66). -/
def statusField (r : Response) : BitVec 2 := r.res0.extractLsb' 0 2

/-- RES0[2] (30 R66). -/
def cleanField (r : Response) : BitVec 1 := r.res0.extractLsb' 2 1

/-- RES0[4:3] (30 R66). -/
def outcomeField (r : Response) : BitVec 2 := r.res0.extractLsb' 3 2

/-- RES0[5] (30 R66). -/
def pbitField (r : Response) : BitVec 1 := r.res0.extractLsb' 5 1

/-- RES0[10:6] (30 R66). -/
def rField (r : Response) : BitVec 5 := r.res0.extractLsb' 6 5

/-- RES0[15:11] (30 R66). -/
def rsvRes0Field (r : Response) : BitVec 5 := r.res0.extractLsb' 11 5

/-- RES0[31:16] (30 R66). -/
def outLenField (r : Response) : BitVec 16 := r.res0.extractLsb' 16 16

end Sys2Proof.Machine
end

