-- ==== Sys2Proof/Machine/Ops.lean ====
section
/-! DEFINITION. The named operations on the state: acceptance of a command, delivery of a response, reset, the moves of the
host, the plan of one step, and the host's read of the response port (10_state.md R23, 20_memory.md R46, R50,
70_reset_and_hazards.md R190..R195).
The block takes no exception and has no trap entry or return (60_exceptions.md R160, R167, R168): an error is a response. -/

namespace Sys2Proof.Machine

/-- Delivery (10 R23, 20 R46): the whole response appears on the response port, in place of an earlier one (DESIGN CHOICE,
notes/assumptions/18.md, unsafe), PHASE returns to READY in the same step, and the host's record grows by it (70 R200). -/
def deliver (r : Response) (s : State) : State :=
  { s with phase := .ready, respPort := some r, observed := s.observed ++ [r] }

/-- The end of every operation: the response to the captured command, computed from its operand vector IN (10 R23, R24).
With no command held there is nothing to answer (notes/assumptions/6.md, safe). -/
def complete (s : State) (answer : Nat → Response) : Host.Outcome State Fault Refusal :=
  match s.phase with
  | .busy held => .next (deliver (answer held.inp) s)
  | .ready => .fault .noCommandHeld

/-- Acceptance (10 R23, 20 R46): CMD and IN are captured whole and PHASE becomes BUSY. The offer is used up: the port offers
nothing more until the host presents again (DEDUCED, notes/assumptions/11.md). The response port keeps the response delivered
last while the block is BUSY (DESIGN CHOICE, notes/assumptions/18.md, unsafe). -/
def accept (c : Command) (s : State) : State :=
  { s with phase := .busy c, cmdPort := none }

/-- Reset (70 R190, R192): PHASE becomes READY, a held command is discarded without a response, and the response fields have
no value. The command port is the host's and keeps its offer (DEDUCED, notes/assumptions/11.md). -/
def resetBlock (s : State) : State :=
  { s with phase := .ready, respPort := none }

/-- What a step does: it is done at once, or it performs a decoded command. -/
inductive Plan where
  | done (s : State)
  | perform (i : Instr) (s : State)
  deriving DecidableEq, Repr

/-- The block's move (10 R23). READY accepts an offered command; with no offer nothing happens (DEDUCED,
notes/assumptions/12.md). BUSY answers the captured command: an undecodable word with BAD_COMMAND and no operation
(30 R62, R63, R73), any other by performing it. -/
def planBlock (s : State) : Plan :=
  match s.phase with
  | .ready =>
    match s.cmdPort with
    | none => .done s
    | some c => .done (accept c s)
  | .busy held =>
    match decode held.cmd with
    | .instr i => .perform i s
    | .badCommand _ => .done (deliver (errorResponse .badCommand) s)

/-- The plan of a step: the next entry of the schedule says who moves (notes/assumptions/2.md, 3.md); with no entry left
the block moves (70 R199, weak fairness). -/
def planStep (s : State) : Plan :=
  match s.moves with
  | [] => planBlock s
  | .block :: rest => planBlock { s with moves := rest }
  | .blockIdle :: rest => .done { s with moves := rest }
  | .present c :: rest => .done { s with moves := rest, cmdPort := some c }
  | .withdraw :: rest => .done { s with moves := rest, cmdPort := none }
  | .reset :: rest => .done (resetBlock { s with moves := rest })

/-- The host's read of the response port (70 R192, 93 I7): before the first response after reset it is a host error.
From then on it answers the response delivered last, however long ago (DESIGN CHOICE, notes/assumptions/18.md, unsafe). -/
def readResponse (s : State) : Host.Outcome Response Fault Refusal :=
  match s.respPort with
  | some r => .next r
  | none => .fault .responseUndefined

/-- The state that holds a captured command, with the block to move next (notes/assumptions/7.md). -/
def holdCommand (c : Command) (s : State) : State :=
  { s with phase := .busy c, moves := [] }

end Sys2Proof.Machine
end

