-- ==== Sys2Proof/Machine/ParityCount.lean ====
section
/-! DEFINITION. The Parity Count Calculator (40_parity_count.md) and the decoder's parity count RDEC
(43_decoder.md R130): the meaning of PCOUNT. -/

namespace Sys2Proof.Machine

/-- The loop `while 2^r < k + r + 1: r <- r + 1` of 40 R90, with a bound on its turns (DEDUCED from 40 R92,
notes/assumptions/10.md, safe). `r` is the counter of 10 R25, R27. -/
def pcountLoop (k : Nat) : Nat → Nat → Nat
  | 0, r => r
  | turns + 1, r => if 2 ^ r < k + r + 1 then pcountLoop k turns (r + 1) else r

/-- PCOUNT(k), the least r >= 1 with 2^r >= k + r + 1 (40 R90). The counter starts at 1 in every evaluation
(10 R27, 90 C3). -/
def pcount (k : Nat) : Nat := pcountLoop k (k + 1) 1

/-- The loop `while 2^r < n + 1: r <- r + 1` of 43 R130, with a bound on its turns (DEDUCED from 70 R199,
notes/assumptions/10.md, safe). -/
def rdecLoop (n : Nat) : Nat → Nat → Nat
  | 0, r => r
  | turns + 1, r => if 2 ^ r < n + 1 then rdecLoop n turns (r + 1) else r

/-- RDEC(n), the least r >= 0 with 2^r >= n + 1 (43 R130). -/
def rdec (n : Nat) : Nat := rdecLoop n (n + 1) 0

/-- The response to `pcount k`: status OK and R = PCOUNT(k), for every length (40 R91). -/
def pcountResponse (k : Nat) : Response := respond { r := pcount k }

/-- PCOUNT (40 R91). IN is ignored. -/
def execPcount (k : Nat) (s : State) : Host.Outcome State Fault Refusal :=
  complete s (fun _ => pcountResponse k)

end Sys2Proof.Machine
end

