-- ==== Sys2Proof/Machine/ParityEvaluator.lean ====
section
/-! DEFINITION. The Parity Evaluator (41_parity_evaluator.md), with the slots and covering sets of 00_scope.md R12
and R13: the meaning of PEVAL. -/

namespace Sys2Proof.Machine

/-- The parity slot of parity index p: storage index 2^p - 1 (00 R12). -/
def slot (p : Nat) : Nat := 2 ^ p - 1

/-- A data slot: a storage index i with (i & (i+1)) not 0, so that i + 1 is no power of two (00 R12). -/
def isDataSlot (i : Nat) : Bool := decide (i &&& (i + 1) ≠ 0)

/-- Storage index i lies in the covering sets of p: bit p of the 1-BASED index i + 1 is set (00 R13, 90 C1). -/
def covers (p i : Nat) : Bool := (i + 1).testBit p

/-- cover(p, n), in increasing order (00 R13). -/
def cover (p n : Nat) : List Nat := (List.range n).filter (covers p)

/-- The walk of 41 R100 from storage index i on, with the accumulator v of 10 R25: the XOR of the bits in the covering set
but for the slot of p itself (90 C2). -/
def pevalWalk (p : Nat) : Nat → BitSeq → Bool → Bool
  | _, [], v => v
  | i, b :: c, v => pevalWalk p (i + 1) c (if covers p i && decide (i ≠ slot p) then v ^^ b else v)

/-- PEVAL(c, p) (41 R100). -/
def peval (c : BitSeq) (p : Nat) : Bool := pevalWalk p 0 c false

/-- Element i of a sequence. Every read of the rules is inside the sequence (41 R104, 42 R111); outside it the model reads
0 (DEDUCED, notes/assumptions/14.md, safe). -/
def elem (c : BitSeq) (i : Nat) : Bool := c.getD i false

/-- CHECK(c, p) = PEVAL(c, p) ^ c[2^p - 1]; the check passes when it is 0 (41 R102). -/
def check (c : BitSeq) (p : Nat) : Bool := peval c p ^^ elem c (slot p)

/-- The response to `peval p, c` with n = |c| on an instance with the given N_MAX (41 R101). -/
def pevalResponse (nMax p n : Nat) (inp : Nat) : Response :=
  if nMax < n then errorResponse .badLength
  else if rdec n ≤ p then errorResponse .badIndex
  else respond { pbit := peval (operand inp n) p, r := rdec n }

/-- PEVAL (41 R101). -/
def execPeval (p n : Nat) (s : State) : Host.Outcome State Fault Refusal :=
  complete s (pevalResponse Config.nMax p n)

end Sys2Proof.Machine
end

