-- ==== Sys2Proof/Machine/Decoder.lean ====
section
/-! DEFINITION. The Decoder (43_decoder.md): syndrome, locator, corrector, extractor, in this order
(70_reset_and_hazards.md R196); the meaning of DECODE. -/

namespace Sys2Proof.Machine

/-- The working state of DECODE (10 R25): parity count, length, working copy, syndrome. -/
structure DecodeWork where
  r : Nat
  n : Nat
  w : BitSeq
  s : Nat
  deriving DecidableEq, Repr

/-- Step 1 and the copy of step 2 (43 R130, R131). -/
def decodeSizes (c : BitSeq) : DecodeWork where
  r := rdec c.length
  n := c.length
  w := c
  s := 0

/-- One turn of the loop of 43 R131: syndrome bit p is set when the evaluator's value differs from the stored bit. -/
def syndromeStep (k : DecodeWork) (p : Nat) : DecodeWork :=
  if peval k.w p ≠ elem k.w (slot p) then { k with s := k.s + 2 ^ p } else k

/-- Step 2, syndrome assembly (43 R131): all RDEC(n) checks read the uncorrected copy (70 R196). -/
def assembleSyndrome (k : DecodeWork) : DecodeWork := (List.range k.r).foldl syndromeStep k

/-- LOCATE(s, n): the storage index to flip, or none (43 R132). -/
def locate (s n : Nat) : Option Nat :=
  if s = 0 then none else if s ≤ n then some (s - 1) else none

/-- The sequence with the bit at storage index q inverted. -/
def flipAt (c : BitSeq) (q : Nat) : BitSeq := c.set q (!elem c q)

/-- Step 4, the single-bit corrector (43 R133): it writes the working copy only. -/
def correct (k : DecodeWork) : DecodeWork :=
  match locate k.s k.n with
  | none => k
  | some q => { k with w := flipAt k.w q }

/-- OUTCOME(s, n) (43 R135). -/
def outcomeOf (s n : Nat) : DecodeOutcome :=
  if s = 0 then .clean else if s ≤ n then .corrected else .uncorrectable

/-- The walk of 43 R136 from storage index i on: the bits at data slots, in order. -/
def extractWalk : Nat → BitSeq → BitSeq
  | _, [] => []
  | i, b :: c => if isDataSlot i then b :: extractWalk (i + 1) c else extractWalk (i + 1) c

/-- EXTRACT(w), step 6 (43 R136). -/
def extract (w : BitSeq) : BitSeq := extractWalk 0 w

/-- The working state of DECODE after the corrector (43 R130..R133). -/
def decodeWork (c : BitSeq) : DecodeWork := correct (assembleSyndrome (decodeSizes c))

/-- The syndrome of a received codeword (43 R131). -/
def syndrome (c : BitSeq) : Nat := (assembleSyndrome (decodeSizes c)).s

/-- DEC(c): the data, the syndrome and the outcome (43 R138). The extractor reads the copy as the corrector left it
(43 R137). -/
def dec (c : BitSeq) : BitSeq × Nat × DecodeOutcome :=
  (extract (decodeWork c).w, (decodeWork c).s, outcomeOf (decodeWork c).s (decodeWork c).n)

/-- The response to `decode c` with n = |c| on an instance with the given N_MAX (43 R139). -/
def decodeResponse (nMax n : Nat) (inp : Nat) : Response :=
  if nMax < n then errorResponse .badLength
  else
    match dec (operand inp n) with
    | (data, s, oc) =>
      respond { clean := decide (s = 0), outcome := oc, r := rdec n, outLen := n - rdec n, syndrome := s, out := data }

/-- DECODE (43 R139). -/
def execDecode (n : Nat) (s : State) : Host.Outcome State Fault Refusal :=
  complete s (decodeResponse Config.nMax n)

end Sys2Proof.Machine
end

