-- ==== Sys2Proof/Machine/Encoder.lean ====
section
/-! DEFINITION. The Encoder (42_encoder.md): sizes, data placement, parity fill, in this order
(70_reset_and_hazards.md R197); the meaning of ENCODE. -/

namespace Sys2Proof.Machine

/-- The working state of ENCODE (10 R25): parity count, length, working codeword, data cursor. -/
structure EncodeWork where
  r : Nat
  n : Nat
  w : BitSeq
  j : Nat
  deriving DecidableEq, Repr

/-- Step 1 and the allocation of step 2 (42 R110, R111): r, n = k + r, n zeros, cursor 0. -/
def encodeSizes (d : BitSeq) : EncodeWork where
  r := pcount d.length
  n := d.length + pcount d.length
  w := List.replicate (d.length + pcount d.length) false
  j := 0

/-- One turn of the walk of 42 R111: a data slot takes the next data bit, a parity slot keeps its placeholder 0. -/
def placeStep (d : BitSeq) (k : EncodeWork) (i : Nat) : EncodeWork :=
  if isDataSlot i then { k with w := k.w.set i (elem d k.j), j := k.j + 1 } else k

/-- Steps 2 and 3, data placement (42 R111): the storage indices in increasing order. -/
def placeData (d : BitSeq) (k : EncodeWork) : EncodeWork := (List.range k.n).foldl (placeStep d) k

/-- One turn of the loop of 42 R112: `w[2^p - 1] <- PEVAL(w, p)`. -/
def fillStep (k : EncodeWork) (p : Nat) : EncodeWork := { k with w := k.w.set (slot p) (peval k.w p) }

/-- Step 4, the parity fill (42 R112): the parity indices in increasing order. -/
def fillParity (k : EncodeWork) : EncodeWork := (List.range k.r).foldl fillStep k

/-- The working state of ENCODE when the operation ends. -/
def encodeWork (d : BitSeq) : EncodeWork := fillParity (placeData d (encodeSizes d))

/-- ENC(d), the codeword of a data sequence (42 R113). -/
def enc (d : BitSeq) : BitSeq := (encodeWork d).w

/-- The greatest k at most `top` with k + PCOUNT(k) <= N_MAX. -/
def kMaxUpTo (nMax : Nat) : Nat → Nat
  | 0 => 0
  | top + 1 => if top + 1 + pcount (top + 1) ≤ nMax then top + 1 else kMaxUpTo nMax top

/-- K_MAX = max of k with k + PCOUNT(k) <= N_MAX (00 R7). -/
def kMaxFor (nMax : Nat) : Nat := kMaxUpTo nMax nMax

/-- The response to `encode d` with k = |d| on an instance with the given N_MAX (42 R114). The length check
`k > K_MAX` is written as `k + PCOUNT(k)` exceeding N_MAX, which R114 says beside it (DEDUCED,
notes/assumptions/9.md, safe: `kMaxUpTo_spec` of Laws is the fact it rests on). -/
def encodeResponse (nMax k : Nat) (inp : Nat) : Response :=
  if nMax < k + pcount k then errorResponse .badLength
  else respond { r := pcount k, outLen := k + pcount k, out := enc (operand inp k) }

/-- ENCODE (42 R114). -/
def execEncode (k : Nat) (s : State) : Host.Outcome State Fault Refusal :=
  complete s (encodeResponse Config.nMax k)

end Sys2Proof.Machine
end

