-- ==== Sys2Proof/Machine/Dispatch.lean ====
section
/-! DEFINITION. One arm per command (30_encoding.md R61). -/

namespace Sys2Proof.Machine

def exec (i : Instr) (s : State) : Host.Outcome State Fault Refusal :=
  match i with
  | .pcount k => Sys2Proof.Machine.execPcount k s
  | .peval p n => Sys2Proof.Machine.execPeval p n s
  | .encode k => Sys2Proof.Machine.execEncode k s
  | .decode n => Sys2Proof.Machine.execDecode n s

end Sys2Proof.Machine
end

