-- ==== Sys2Proof/Machine/Step.lean ====
section
/-! DEFINITION. One step of the machine: what `planStep` says, by `exec` where a command is performed; and the word a table
row is run by. -/

namespace Sys2Proof.Machine

/-- One step (00_scope.md R17, 10_state.md R23). -/
def step (s : State) : Host.Outcome State Fault Refusal :=
  match planStep s with
  | .done t => .next t
  | .perform i t => exec i t

/-- The state that has just captured the table word, every bit of IN 0, with the block to move next: the very next step
performs it (notes/assumptions/7.md). -/
def State.withFetchWord (s : State) (nbits w : Nat) : State :=
  holdCommand ⟨tableWord nbits w, 0⟩ s

end Sys2Proof.Machine
end

