-- ==== Sys2Proof/Machine/Assembler.lean ====
section
/-! DEFINITION. The textual form of a command (30_encoding.md R75), as data: the four lines of the assembler, and the
command each stands for. `flip i` (R76) is no command and has no form here. -/

namespace Sys2Proof.Machine

/-- A line of the assembler (30 R75). A bracket list is a bit sequence. -/
inductive Asm where
  | pcount (k : Nat)
  | peval (p : Nat) (c : BitSeq)
  | encode (d : BitSeq)
  | decode (c : BitSeq)
  deriving DecidableEq, Repr

/-- The line can be spelled: PIDX has 8 bits, LEN has 16 (30 R60, R75). -/
def asmWf : Asm → Bool
  | .pcount k => lenFits k
  | .peval p c => pidxFits p && lenFits c.length
  | .encode d => lenFits d.length
  | .decode c => lenFits c.length

/-- The decoded command of a line: LEN is the length of its list (30 R75). -/
def asmInstr : Asm → Instr
  | .pcount k => .pcount k
  | .peval p c => .peval p c.length
  | .encode d => .encode d.length
  | .decode c => .decode c.length

/-- The operand sequence of a line; `pcount` has none (40 R91). -/
def asmSeq : Asm → BitSeq
  | .pcount _ => []
  | .peval _ c => c
  | .encode d => d
  | .decode c => c

/-- The command a line stands for: its word CMD and the vector IN with bit i = element i (30 R75).
R75 gives a `pcount` line no IN: the model presents 0 (DESIGN CHOICE, notes/assumptions/19.md, unsafe). Bits of IN at or above
the length of a list are 0, as the IN values of 95_test_vectors.md have them (DEDUCED, notes/assumptions/19.md, unsafe). No
response depends on either (20 R44, 40 R91). -/
def assemble (a : Asm) : Command where
  cmd := encode (asmInstr a)
  inp := seqValue (asmSeq a)

end Sys2Proof.Machine
end

