-- ==== Sys2Proof/Safety.lean ====
section
/-! DEFINITION. What counts as a well-formed response and a well-formed state: the terms the claims use. -/

namespace Sys2Proof.Machine

/-- The response of a decoded command to an operand vector, on an instance with the given N_MAX. -/
def instrResponse (nMax : Nat) : Instr → Nat → Response
  | .pcount k, _ => pcountResponse k
  | .peval p n, inp => pevalResponse nMax p n inp
  | .encode k, inp => encodeResponse nMax k inp
  | .decode n, inp => decodeResponse nMax n inp

/-- The response to a command (10 R22, R23): it depends on the command alone. -/
def responseTo (c : Command) : Response :=
  match decode c.cmd with
  | .instr i => instrResponse Config.nMax i c.inp
  | .badCommand _ => errorResponse .badCommand

/-- The vector has N_MAX bits (00_scope.md R6). -/
abbrev vecFits (v : Nat) : Prop := v < 2 ^ Config.nMax

/-- What 30 R66..R71 and 60 R163 say of EVERY response. -/
structure ResponseWf (r : Response) : Prop where
  /-- RES0[15:11] is always 0 (30 R66). -/
  reserved : rsvRes0Field r = 0#5
  /-- RES1[31:16] is always 0 (30 R67). -/
  res1High : r.res1.extractLsb' 16 16 = 0#16
  /-- The largest R is 17 (30 R71). -/
  rBound : (rField r).toNat ≤ 17
  /-- OUT bits at or above OUT_LEN are 0 (20 R44, 30 R68). -/
  outBound : r.out < 2 ^ (outLenField r).toNat
  /-- The largest OUT_LEN is N_MAX (30 R71). -/
  outLenBound : (outLenField r).toNat ≤ Config.nMax
  /-- CLEAN = 1 iff OUTCOME is CLEAN (30 R69). -/
  cleanIff : cleanField r = 1#1 ↔ outcomeField r = 0b01#2
  /-- The syndrome is nonzero iff OUTCOME is CORRECTED or UNCORRECTABLE (30 R67, R69). -/
  syndromeIff : r.res1 ≠ 0#32 ↔ outcomeField r = 0b10#2 ∨ outcomeField r = 0b11#2
  /-- An error status leaves every other field 0 (60 R163). -/
  errorZero : statusField r ≠ 0b00#2 → r.res0 = (statusField r).setWidth 32 ∧ r.res1 = 0#32 ∧ r.out = 0

/-- The command a move presents, if any, has an N_MAX-bit operand vector. -/
def moveFits : Move → Prop
  | .present c => vecFits c.inp
  | _ => True

/-- The command held while BUSY has an N_MAX-bit operand vector. -/
def phaseFits : Phase → Prop
  | .ready => True
  | .busy held => vecFits held.inp

/-- The invariant of the machine. -/
structure StateInv (s : State) : Prop where
  /-- The captured IN has N_MAX bits (20 R40, R46). -/
  held : phaseFits s.phase
  /-- The presented IN has N_MAX bits (20 R40). -/
  port : ∀ c, s.cmdPort = some c → vecFits c.inp
  /-- Every vector the host is going to present has N_MAX bits. -/
  script : ∀ m ∈ s.moves, moveFits m
  /-- Every response ever delivered is well formed. -/
  responses : ∀ r ∈ s.observed, ResponseWf r
  /-- The response port shows the response delivered last, if it shows one (70 R192). That it goes on showing it until the
  next delivery or a reset is the model's choice (DESIGN CHOICE, notes/assumptions/18.md, unsafe). -/
  last : ∀ r, s.respPort = some r → s.observed.getLast? = some r

/-- The XOR of the 1-based indices of the set bits of a sequence (43 R140). -/
def xorOfPositions (c : BitSeq) : Nat :=
  (List.range c.length).foldl (fun acc i => if elem c i then acc ^^^ (i + 1) else acc) 0

/-- How many storage indices i below n have the property, counted mod 2: the XOR of n bits (00 R11). -/
def oddCount (n : Nat) (f : Nat → Bool) : Bool := decide (((List.range n).filter f).length % 2 = 1)

/-- The position of the data bit that data slot i carries (42 R118). -/
def dataIndex (i : Nat) : Nat := i - (Nat.log 2 (i + 1) + 1)

/-- The next step is a move of the block. -/
abbrev BlockNext (s : State) : Prop := s.moves.head? = none ∨ s.moves.head? = some .block

/-- The outcome of an operation performed in s is a next state in which PHASE is READY, the response port shows a response r
with the property, the host has observed r besides what it had observed, and nothing else has changed (10 R23). -/
def Answers (o : Host.Outcome State Fault Refusal) (s : State) (P : Response → Prop) : Prop :=
  ∃ t r, o = .next t ∧ P r ∧ t.phase = .ready ∧ t.respPort = some r ∧ t.observed = s.observed ++ [r] ∧
    t.cmdPort = s.cmdPort ∧ t.moves = s.moves

/-- The same of a step, which also uses up the entry of the schedule, if there is one. -/
def StepAnswers (s : State) (P : Response → Prop) : Prop :=
  Answers (step s) { s with moves := s.moves.tail } P

/-- A run of n steps, ended by the first fault or refusal. -/
def runSteps : Nat → State → Host.Outcome State Fault Refusal
  | 0, s => .next s
  | n + 1, s =>
    match step s with
    | .next t => runSteps n t
    | .fault r => .fault r
    | .refused r => .refused r

/-- The move is the host's own and no reset, or idle time: it does not move the block. -/
def Move.isQuiet : Move → Bool
  | .block => false
  | .blockIdle => true
  | .present _ => true
  | .withdraw => true
  | .reset => false

/-- What stands on the command port after a list of moves of which none moves the block. -/
def portAfter (port : Option Command) : List Move → Option Command
  | [] => port
  | .present c :: ms => portAfter (some c) ms
  | .withdraw :: ms => portAfter none ms
  | _ :: ms => portAfter port ms

/-- The schedule of a sequence of commands (70 R200): present each one, let the block accept it, let it take the given
delay, let it answer (00 R9: LATENCY may differ from command to command). -/
def commandSchedule : List (Command × Nat) → List Move
  | [] => []
  | (c, delay) :: cs => .present c :: .block :: List.replicate delay .blockIdle ++ .block :: commandSchedule cs

end Sys2Proof.Machine
end

