-- ==== Sys2Proof/Certificates/Slice0/Obligations.lean ====
section
/-! DEFINITION. The statements for the provers, from the spec's numbered rules. -/

open Sys2Proof Sys2Proof.Machine

/-! ### Command words -/

/-- 30 R60, R72, R75: the decoder reads back every command the encoder writes, every operand at every value. -/
def Obligations.DecodeOfEncodeIsTheCommand : Prop :=
  ∀ i : Instr, i.wf = true → decode (encode i) = .instr i

/-- 30 R60, R72: every word that selects a command is the one word of that command, which is well formed. -/
def Obligations.EncodeOfDecodeIsTheWord : Prop :=
  ∀ (cmd : Word) (i : Instr), decode cmd = .instr i → i.wf = true ∧ encode i = cmd

/-- 30 R72, whole: the outcome of every word, by the fields of CMD taken by division, and by match and mask. -/
def Obligations.CommandDecodeIsTotalAndUnambiguous : Prop :=
  ∀ cmd : Word,
    (cmd.toNat / 4 % 64 ≠ 0 → ∃ why, decode cmd = .badCommand why) ∧
    (cmd.toNat / 4 % 64 = 0 → cmd.toNat % 4 ≠ 1 → cmd.toNat / 256 % 256 ≠ 0 → ∃ why, decode cmd = .badCommand why) ∧
    (cmd.toNat / 4 % 64 = 0 → cmd.toNat % 4 = 0 → cmd.toNat / 256 % 256 = 0 →
      decode cmd = .instr (.pcount (cmd.toNat / 65536))) ∧
    (cmd.toNat / 4 % 64 = 0 → cmd.toNat % 4 = 1 →
      decode cmd = .instr (.peval (cmd.toNat / 256 % 256) (cmd.toNat / 65536))) ∧
    (cmd.toNat / 4 % 64 = 0 → cmd.toNat % 4 = 2 → cmd.toNat / 256 % 256 = 0 →
      decode cmd = .instr (.encode (cmd.toNat / 65536))) ∧
    (cmd.toNat / 4 % 64 = 0 → cmd.toNat % 4 = 3 → cmd.toNat / 256 % 256 = 0 →
      decode cmd = .instr (.decode (cmd.toNat / 65536))) ∧
    (∀ i, decode cmd = .instr i ↔
      (cmd &&& (rowOf i).mask = (rowOf i).pattern ∧ i = match i with
        | .pcount _ => .pcount (cmd.toNat / 65536)
        | .peval _ _ => .peval (cmd.toNat / 256 % 256) (cmd.toNat / 65536)
        | .encode _ => .encode (cmd.toNat / 65536)
        | .decode _ => .decode (cmd.toNat / 65536))) ∧
    opcodeRows.map (fun row => (row.mnemonic, row.pattern, row.mask)) =
      [("PCOUNT", 0x00000000#32, 0x0000FFFF#32), ("PEVAL", 0x00000001#32, 0x000000FF#32),
       ("ENCODE", 0x00000002#32, 0x0000FFFF#32), ("DECODE", 0x00000003#32, 0x0000FFFF#32)] ∧
    (∀ i, rowOf i ∈ opcodeRows) ∧
    (∀ a ∈ opcodeRows, ∀ b ∈ opcodeRows, a.fits cmd = true → b.fits cmd = true → a = b) ∧
    ((∃ why, decode cmd = .badCommand why) ↔ ∀ row ∈ opcodeRows, row.fits cmd = false)

/-- Sanity: words written out from the encodings of 30 R60 and R72 (opcode_table.json). -/
def Obligations.SpecWordsDecode : Prop :=
  decode 0x00040000#32 = .instr (.pcount 4) ∧ decode 0x00070101#32 = .instr (.peval 1 7) ∧
  decode 0x00040002#32 = .instr (.encode 4) ∧ decode 0x00070003#32 = .instr (.decode 7) ∧
  decode 0x00040100#32 = .badCommand .indexNonzero ∧ decode 0x00070111#32 = .badCommand .reservedNonzero

/-- 30 R75 and 20 R42: the command a line of the assembler stands for, as a number, and as what the block reads from it. (That
IN is 0 for a `pcount` line, and 0 at and above the length of a list, is the model's choice, log entry 19.) -/
def Obligations.AssemblerLineIsItsCommand : Prop :=
  ∀ a : Asm, asmWf a = true →
    (assemble a).cmd.toNat = (match a with
      | .pcount k => k * 65536
      | .peval p c => c.length * 65536 + p * 256 + 1
      | .encode d => d.length * 65536 + 2
      | .decode c => c.length * 65536 + 3) ∧
    (∀ i, (assemble a).inp.testBit i = elem (asmSeq a) i) ∧
    decode (assemble a).cmd = .instr (asmInstr a) ∧
    operand (assemble a).inp (asmSeq a).length = asmSeq a

/-! ### Vectors and response words -/

/-- 20 R43: the value of a vector is the sum of its bits times powers of two, element 0 the least significant; the hosts'
byte convention puts bit i into byte i div 8 at bit i mod 8. -/
def Obligations.VectorValueIsSumOfBits : Prop :=
  (∀ c : BitSeq, seqValue c = ((List.range c.length).map (fun i => (elem c i).toNat * 2 ^ i)).sum) ∧
  (∀ v n, v < 2 ^ n → seqValue (operand v n) = v) ∧ seqValue [true, false, true, true] = 0xD ∧
  ∀ v i, (hostByte v (i / 8)).getLsbD (i % 8) = v.testBit i

/-- 30 R66, R67, R69, R70: RES0 as a number from its fields, each field read back as written, RES1 the syndrome, which has the
16 bits of R67. -/
def Obligations.ResponseFieldsStandInTheirPlaces : Prop :=
  ∀ f : ResultFields, f.r < 32 → f.outLen < 65536 → f.syndrome < 65536 →
    (respond f).res0.toNat =
      (match f.status with | .ok => 0 | .badCommand => 1 | .badLength => 2 | .badIndex => 3) + 4 * f.clean.toNat
      + 8 * (match f.outcome with | .none => 0 | .clean => 1 | .corrected => 2 | .uncorrectable => 3)
      + 32 * f.pbit.toNat + 64 * f.r + 65536 * f.outLen ∧
    (respond f).res1.toNat = f.syndrome ∧ rsvRes0Field (respond f) = 0#5 ∧
    statusField (respond f) = statusCode f.status ∧ outcomeField (respond f) = outcomeCode f.outcome ∧
    (rField (respond f)).toNat = f.r ∧ (outLenField (respond f)).toNat = f.outLen ∧
    (cleanField (respond f) = 1#1 ↔ f.clean = true) ∧ (pbitField (respond f) = 1#1 ↔ f.pbit = true)

/-! ### PCOUNT -/

/-- 40 R90: PCOUNT(k) is the least r >= 1 with 2^r >= k + r + 1; for k >= 1 it is the least r >= 0; PCOUNT(0) = 1. -/
def Obligations.PcountIsTheLeastCount : Prop :=
  (∀ k, IsLeast {r | 1 ≤ r ∧ k + r + 1 ≤ 2 ^ r} (pcount k)) ∧
  (∀ k, 1 ≤ k → IsLeast {r | k + r + 1 ≤ 2 ^ r} (pcount k)) ∧ pcount 0 = 1

/-- 40 R92: the condition stays true once it is true, some r meets it, and there is exactly one least one. -/
def Obligations.PcountConditionIsAnUpSet : Prop :=
  ∀ k, (∀ r, k + r + 1 ≤ 2 ^ r → k + (r + 1) + 1 ≤ 2 ^ (r + 1)) ∧ (∃ r, 1 ≤ r ∧ k + r + 1 ≤ 2 ^ r) ∧
    ∀ r, 1 ≤ r → (k + r + 1 ≤ 2 ^ r ↔ pcount k ≤ r)

/-- 40 R93: PCOUNT is non-decreasing, and minimal for k >= 1; the clause is false at k = 0. -/
def Obligations.PcountIsMonotoneAndMinimal : Prop :=
  (∀ k l, k ≤ l → pcount k ≤ pcount l) ∧
  (∀ k, 1 ≤ k → 2 ^ (pcount k - 1) < k + (pcount k - 1) + 1) ∧ ¬ 2 ^ (pcount 0 - 1) < 0 + (pcount 0 - 1) + 1

/-- 40 R94: the closed form of PCOUNT, the ranges of its table, where each range of codeword lengths starts and ends, and
that a codeword length is a power of two only for n = 1. -/
def Obligations.PcountClosedForm : Prop :=
  pcount 0 = 1 ∧ (∀ r k, 2 ≤ r → (pcount k = r ↔ 2 ^ (r - 1) - r + 1 ≤ k ∧ k ≤ 2 ^ r - r - 1)) ∧
  pcount 1 = 2 ∧ (∀ k, 2 ≤ k → k ≤ 4 → pcount k = 3) ∧ (∀ k, 5 ≤ k → k ≤ 11 → pcount k = 4) ∧
  (∀ k, 12 ≤ k → k ≤ 26 → pcount k = 5) ∧ (∀ k, 27 ≤ k → k ≤ 57 → pcount k = 6) ∧
  (∀ k, 58 ≤ k → k ≤ 120 → pcount k = 7) ∧ (∀ k, 121 ≤ k → k ≤ 247 → pcount k = 8) ∧
  (∀ k, 65520 ≤ k → k ≤ 65535 → pcount k = 17) ∧
  (∀ r, 2 ≤ r → 2 ^ (r - 1) - r + 1 + pcount (2 ^ (r - 1) - r + 1) = 2 ^ (r - 1) + 1 ∧
    2 ^ r - r - 1 + pcount (2 ^ r - r - 1) = 2 ^ r - 1) ∧
  (∀ k, (∃ m, k + pcount k = 2 ^ m) ↔ k + pcount k = 1)

/-- 40 R91, 30 R71: PCOUNT completes for every length, answers OK with the least count in R, every other field 0, and changes
nothing else. -/
def Obligations.PcountCompletes : Prop :=
  ∀ (k : Nat) (s : State) (held : Command), (Instr.pcount k).wf = true → s.phase = .busy held →
    Answers (exec (.pcount k) s) s (fun r =>
      statusField r = 0#2 ∧ IsLeast {q | 1 ≤ q ∧ k + q + 1 ≤ 2 ^ q} (rField r).toNat ∧ (rField r).toNat ≤ 17 ∧
      cleanField r = 0#1 ∧ outcomeField r = 0#2 ∧ pbitField r = 0#1 ∧ outLenField r = 0#16 ∧
      r.res1 = 0#32 ∧ r.out = 0)

/-! ### Slots, covering sets, PEVAL -/

/-- 00 R12: isPow2 by masks, the slots, and what the parity slots of a length are. -/
def Obligations.DataSlotsAreTheNonPowers : Prop :=
  (∀ m, 1 ≤ m → (m &&& (m - 1) = 0 ↔ ∃ q, m = 2 ^ q)) ∧ (∀ p, slot p + 1 = 2 ^ p) ∧
  (∀ i : Nat, i &&& (i + 1) = 0 ↔ ∃ q, i + 1 = 2 ^ q) ∧ (∀ i : Nat, isDataSlot i = true ↔ i &&& (i + 1) ≠ 0) ∧
  ∀ n i, i < n → (isDataSlot i = false ↔ ∃ p, i = 2 ^ p - 1)

/-- 00 R13, 41 R105: membership of the covering sets, which slots they hold, and that the sets an index lies in spell
i + 1. -/
def Obligations.CoveringSetsAreOneBased : Prop :=
  (∀ p n i, i ∈ cover p n ↔ i < n ∧ (i + 1) / 2 ^ p % 2 = 1) ∧
  (∀ p n, slot p < n → slot p ∈ cover p n) ∧ (∀ p q n, p ≠ q → slot q ∉ cover p n) ∧
  (∀ i n, i < n → ∑ p ∈ (Finset.range (i + 1)).filter (fun p => i ∈ cover p n), 2 ^ p = i + 1) ∧
  cover 0 15 = [0, 2, 4, 6, 8, 10, 12, 14] ∧ cover 1 15 = [1, 2, 5, 6, 9, 10, 13, 14] ∧
  cover 2 15 = [3, 4, 5, 6, 11, 12, 13, 14] ∧ cover 3 15 = [7, 8, 9, 10, 11, 12, 13, 14] ∧
  [slot 0, slot 1, slot 2, slot 3] = [0, 1, 3, 7] ∧
  ∀ p n, n ≤ 15 → cover p n = (cover p 15).filter (fun i => decide (i < n))

/-- 41 R100: PEVAL is the XOR over the covering set without the slot of p, and equally the XOR over all of it with that
slot read as 0. -/
def Obligations.PevalIsXorOfTheCover : Prop :=
  ∀ (c : BitSeq) (p : Nat), slot p < c.length →
    peval c p = oddCount c.length (fun i => (i + 1).testBit p && decide (i ≠ 2 ^ p - 1) && elem c i) ∧
    peval c p = oddCount c.length (fun i => (i + 1).testBit p && elem (c.set (2 ^ p - 1) false) i)

/-- 41 R102: the check is the XOR over the whole covering set, and it passes iff the evaluator returns the stored bit. -/
def Obligations.CheckIsXorOfTheWholeCover : Prop :=
  ∀ (c : BitSeq) (p : Nat), slot p < c.length →
    check c p = oddCount c.length (fun i => (i + 1).testBit p && elem c i) ∧
    (check c p = false ↔ peval c p = elem c (slot p))

/-- 41 R101 (corner cases), 42 R115: PEVAL of p depends on no parity slot, its own or another. -/
def Obligations.PevalReadsNoParitySlot : Prop :=
  ∀ (c d : BitSeq) (p : Nat), c.length = d.length →
    (∀ i, i < c.length → isDataSlot i = true → elem c i = elem d i) → peval c p = peval d p

/-- 41 R104: the index check admits exactly the p whose slot lies in the codeword. -/
def Obligations.IndexCheckAdmitsTheSlotsThatExist : Prop :=
  ∀ n p, p < rdec n ↔ slot p < n

/-- 41 R101, 30 R71: PEVAL completes for every length up to N_MAX and every index below RDEC(n), answers OK with the parity
bit and R = RDEC(n), every other field 0, and changes nothing else. -/
def Obligations.PevalCompletes : Prop :=
  ∀ (p n : Nat) (s : State) (held : Command), n ≤ Config.nMax → p < rdec n → s.phase = .busy held →
    Answers (exec (.peval p n) s) s (fun r =>
      statusField r = 0#2 ∧
      (pbitField r = 1#1 ↔
        oddCount n (fun i => (i + 1).testBit p && decide (i + 1 ≠ 2 ^ p) && held.inp.testBit i) = true) ∧
      IsLeast {q | n + 1 ≤ 2 ^ q} (rField r).toNat ∧
      cleanField r = 0#1 ∧ outcomeField r = 0#2 ∧ outLenField r = 0#16 ∧ r.res1 = 0#32 ∧ r.out = 0)

/-! ### ENCODE -/

/-- 42 R110, R111, 70 R197: after data placement every data slot holds the next data bit, every parity slot its placeholder
0, and the cursor has consumed exactly the data; the parity fill leaves the cursor and the data slots. -/
def Obligations.PlacementConsumesTheDataInOrder : Prop :=
  ∀ d : BitSeq,
    let k := placeData d (encodeSizes d)
    k.r = pcount d.length ∧ k.n = d.length + pcount d.length ∧ k.w.length = k.n ∧ k.j = d.length ∧
    (∀ i, i < k.n → elem k.w i = (isDataSlot i && elem d (dataIndex i))) ∧
    (encodeWork d).j = d.length ∧ (enc d).length = d.length + pcount d.length ∧
    ∀ i, isDataSlot i = true → elem (enc d) i = elem k.w i

/-- 42 R115: every parity check passes on ENC(d), and the order of the parity fill does not matter. -/
def Obligations.EveryCheckPassesInAnyFillOrder : Prop :=
  ∀ d : BitSeq,
    (∀ p, p < pcount d.length → peval (enc d) p = elem (enc d) (slot p) ∧ check (enc d) p = false) ∧
    ∀ ps : List Nat, ps.Perm (List.range (pcount d.length)) →
      ps.foldl fillStep (placeData d (encodeSizes d)) = encodeWork d

/-- 42 R116: the slots of a codeword length, counted. -/
def Obligations.CodewordSlotsAreCounted : Prop :=
  ∀ k, ((List.range (k + pcount k)).filter isDataSlot).length = k ∧
    ((List.range (k + pcount k)).filter (fun i => !isDataSlot i)).length = pcount k ∧
    (∀ i, i < k + pcount k → (isDataSlot i = false ↔ ∃ p, i = slot p)) ∧
    pcount k = Nat.log 2 (k + pcount k) + 1 ∧ rdec (k + pcount k) = pcount k

/-- 42 R117: the highest parity slot lies inside the codeword. -/
def Obligations.HighestSlotLiesInTheCodeword : Prop :=
  ∀ k, slot (pcount k - 1) < k + pcount k

/-- 42 R118: the closed forms of a codeword's elements, how many parity slots lie at or below an index, and the instance
n = 7. -/
def Obligations.CodewordClosedForms : Prop :=
  (∀ i, ((List.range (i + 1)).filter (fun j => !isDataSlot j)).length = Nat.log 2 (i + 1) + 1) ∧
  (∀ (d : BitSeq) (i : Nat), i < d.length + pcount d.length → isDataSlot i = true →
    elem (enc d) i = elem d (i - (Nat.log 2 (i + 1) + 1))) ∧
  (∀ (d : BitSeq) (p : Nat), p < pcount d.length →
    elem (enc d) (slot p) = oddCount (d.length + pcount d.length)
      (fun i => (i + 1).testBit p && isDataSlot i && elem (enc d) i)) ∧
  ∀ d0 d1 d2 d3 : Bool, enc [d0, d1, d2, d3] =
    [d0 ^^ d1 ^^ d3, d0 ^^ d2 ^^ d3, d0, d1 ^^ d2 ^^ d3, d1, d2, d3]

/-- 00 R7: K_MAX is the greatest k with k + PCOUNT(k) <= N_MAX, ENCODE refuses exactly the lengths above it, and it is 120
for N_MAX = 128. -/
def Obligations.KMaxIsTheGreatestDataLength : Prop :=
  (∀ m, 107 ≤ m → m ≤ 65535 → IsGreatest {k | k + pcount k ≤ m} (kMaxFor m) ∧
    ∀ k inp, k < 65536 → (encodeResponse m k inp = errorResponse .badLength ↔ kMaxFor m < k)) ∧ kMaxFor 128 = 120 ∧
  pcount 120 = 7 ∧ pcount 121 = 8

/-- 42 R114, 30 R71: ENCODE completes for every length up to K_MAX, answers OK with the codeword on OUT (the data bits in
order at the data slots, every covering set even), its length in OUT_LEN and the parity count in R, every other field 0,
and changes nothing else. -/
def Obligations.EncodeCompletes : Prop :=
  ∀ (k : Nat) (s : State) (held : Command), k ≤ kMaxFor Config.nMax → s.phase = .busy held →
    Answers (exec (.encode k) s) s (fun r =>
      statusField r = 0#2 ∧ IsLeast {q | 1 ≤ q ∧ k + q + 1 ≤ 2 ^ q} (rField r).toNat ∧
      (outLenField r).toNat = k + (rField r).toNat ∧ r.out < 2 ^ (outLenField r).toNat ∧
      (∀ i, i < k + (rField r).toNat → (¬ ∃ q, i + 1 = 2 ^ q) → r.out.testBit i = held.inp.testBit (dataIndex i)) ∧
      (∀ p, p < (rField r).toNat →
        oddCount (k + (rField r).toNat) (fun i => (i + 1).testBit p && r.out.testBit i) = false) ∧
      cleanField r = 0#1 ∧ outcomeField r = 0#2 ∧ pbitField r = 0#1 ∧ r.res1 = 0#32)

/-! ### DECODE -/

/-- 43 R130: RDEC(n) is the least r with 2^r >= n + 1; its closed form and the rule's values. -/
def Obligations.RdecIsTheLeastCount : Prop :=
  (∀ n, IsLeast {r | n + 1 ≤ 2 ^ r} (rdec n)) ∧ (∀ n, 1 ≤ n → rdec n = Nat.log 2 n + 1) ∧
  (∀ n, rdec n = ((Finset.Icc 1 n).filter (fun m => ∃ q ≤ n, m = 2 ^ q)).card) ∧
  rdec 0 = 0 ∧ rdec 1 = 1 ∧ (∀ n, 2 ≤ n → n ≤ 3 → rdec n = 2) ∧ (∀ n, 4 ≤ n → n ≤ 7 → rdec n = 3) ∧
  (∀ n, 8 ≤ n → n ≤ 15 → rdec n = 4) ∧ (∀ n, 16 ≤ n → n ≤ 31 → rdec n = 5) ∧ (∀ n, 32 ≤ n → n ≤ 63 → rdec n = 6) ∧
  (∀ n, 64 ≤ n → n ≤ 127 → rdec n = 7) ∧ (∀ n, 128 ≤ n → n ≤ 255 → rdec n = 8) ∧
  ∀ n, 32768 ≤ n → n ≤ 65535 → rdec n = 16

/-- 43 R142: the decoder recovers the encoder's parity count. -/
def Obligations.DecoderRecoversTheParityCount : Prop :=
  ∀ k, rdec (k + pcount k) = pcount k

/-- 43 R140: the syndrome is the XOR of the 1-based indices of the set bits; bit p of it is the XOR of the covering set of
p; flipping index i XORs it with i + 1. -/
def Obligations.SyndromeIsXorOfPositions : Prop :=
  ∀ c : BitSeq, syndrome c = xorOfPositions c ∧
    (∀ p, (syndrome c).testBit p = oddCount c.length (fun i => (i + 1).testBit p && elem c i)) ∧
    ∀ i, i < c.length → syndrome (flipAt c i) = syndrome c ^^^ (i + 1)

/-- 43 R131: syndrome bit p is the check of p for p below RDEC(n), and the syndrome is below 2^RDEC(n). -/
def Obligations.SyndromeBitsAreTheChecks : Prop :=
  ∀ c : BitSeq, (∀ p, (syndrome c).testBit p = (decide (p < rdec c.length) && check c p)) ∧
    syndrome c < 2 ^ rdec c.length ∧ ∀ p, p < rdec c.length → slot p < c.length

/-- 43 R132, R133, R137, 70 R196: the corrector inverts the one bit the locator names in a copy of the received codeword,
or none; the syndrome is that of the received codeword; DEC's triple (R135, R138). -/
def Obligations.CorrectorFlipsAtMostTheLocatedBit : Prop :=
  (∀ s n, locate s n = if 1 ≤ s ∧ s ≤ n then some (s - 1) else none) ∧
  ∀ c : BitSeq, (decodeWork c).s = syndrome c ∧ (decodeWork c).n = c.length ∧ (decodeWork c).w.length = c.length ∧
    (∀ i, i < c.length → elem (decodeWork c).w i = (elem c i ^^ decide (locate (syndrome c) c.length = some i))) ∧
    dec c = (extract (decodeWork c).w, syndrome c,
      if syndrome c = 0 then .clean else if syndrome c ≤ c.length then .corrected else .uncorrectable)

/-- 43 R136: the extractor collects the bits at data slots in order, and its result has length |w| - RDEC(|w|). -/
def Obligations.ExtractorCollectsTheDataSlots : Prop :=
  ∀ w : BitSeq, (extract w).length = w.length - rdec w.length ∧
    ∀ i, i < w.length → isDataSlot i = true →
      dataIndex i < (extract w).length ∧ elem (extract w) (dataIndex i) = elem w i

/-- 43 R139, 30 R67, R71: DECODE completes for every length up to N_MAX and every content, answers OK with the syndrome in
RES1, CLEAN and OUTCOME by the syndrome, R = RDEC(n), the data of the corrected copy on OUT, PBIT 0, and changes nothing
else. -/
def Obligations.DecodeCompletes : Prop :=
  ∀ (n : Nat) (s : State) (held : Command), n ≤ Config.nMax → s.phase = .busy held →
    Answers (exec (.decode n) s) s (fun r =>
      let syn := xorOfPositions (operand held.inp n)
      statusField r = 0#2 ∧ r.res1.toNat = syn ∧ (cleanField r = 1#1 ↔ syn = 0) ∧
      (outcomeField r).toNat = (if syn = 0 then 1 else if syn ≤ n then 2 else 3) ∧
      IsLeast {q | n + 1 ≤ 2 ^ q} (rField r).toNat ∧ (outLenField r).toNat + (rField r).toNat = n ∧
      r.out < 2 ^ (outLenField r).toNat ∧
      (∀ i, i < n → (¬ ∃ q, i + 1 = 2 ^ q) →
        dataIndex i < (outLenField r).toNat ∧
        r.out.testBit (dataIndex i) = (held.inp.testBit i ^^ decide (i + 1 = syn))) ∧
      pbitField r = 0#1)

/-- 43 R141: a codeword decodes to its data, with syndrome 0 and CLEAN. -/
def Obligations.DecodeOfEncodeIsTheData : Prop :=
  ∀ d : BitSeq, dec (enc d) = (d, 0, .clean)

/-- 43 R143: a codeword with any one bit flipped decodes to its data, with syndrome i + 1 and CORRECTED. -/
def Obligations.AnySingleErrorIsCorrected : Prop :=
  ∀ (d : BitSeq) (i : Nat), i < (enc d).length → dec (flipAt (enc d) i) = (d, i + 1, .corrected)

/-- 43 R144: two or more flips have the exact result of the literal steps, in three cases by the XOR of the flipped
positions. -/
def Obligations.SeveralErrorsGiveTheLiteralResult : Prop :=
  ∀ (d : BitSeq) (is : List Nat), 2 ≤ is.length → is.Nodup → (∀ i ∈ is, i < (enc d).length) →
    let word := is.foldl flipAt (enc d)
    let s := is.foldl (fun acc i => acc ^^^ (i + 1)) 0
    syndrome word = s ∧ (s = 0 → dec word = (extract word, 0, .clean)) ∧
    (s = 0 → (∃ i ∈ is, isDataSlot i = true) → (dec word).1 ≠ d) ∧
    (1 ≤ s → s ≤ (enc d).length → dec word = (extract (flipAt word (s - 1)), s, .corrected)) ∧
    ((enc d).length < s → dec word = (extract word, s, .uncorrectable))

/-- 43 R145: UNCORRECTABLE needs n < 2^RDEC(n) - 1; when n = 2^r - 1 every nonzero syndrome is at most n. -/
def Obligations.UncorrectableNeedsAShortenedLength : Prop :=
  (∀ c : BitSeq, (dec c).2.2 = .uncorrectable → c.length < 2 ^ rdec c.length - 1 ∧ ∀ r, c.length ≠ 2 ^ r - 1) ∧
  ∀ (c : BitSeq) (r : Nat), c.length = 2 ^ r - 1 → syndrome c ≤ c.length

/-- 42 R115, R118, 43 R140 (90 C8): at a codeword length, the words with syndrome 0 are exactly the codewords, so a
miscorrected double error is the same word as a single error in another codeword. -/
def Obligations.ZeroSyndromeWordsAreTheCodewords : Prop :=
  (∀ c : BitSeq, c.length = (extract c).length + pcount (extract c).length →
    (syndrome c = 0 ↔ c = enc (extract c))) ∧
  ∀ (d : BitSeq) (i j : Nat), i < (enc d).length → j < (enc d).length → i ≠ j →
    let s := (i + 1) ^^^ (j + 1)
    s ≤ (enc d).length →
    ∃ d', d'.length = d.length ∧ d' ≠ d ∧ flipAt (flipAt (enc d) i) j = flipAt (enc d') (s - 1)

/-- 43 R141, R143 on the machine: what ENCODE answers, handed back to DECODE with at most one bit flipped, gives the data
bits on OUT, CLEAN iff nothing was flipped, and the flipped position in RES1. -/
def Obligations.MachineRoundTripCorrectsOneError : Prop :=
  ∀ (k : Nat) (s1 s2 : State) (sent received : Command), k ≤ kMaxFor Config.nMax →
    s1.phase = .busy sent → s2.phase = .busy received →
    Answers (exec (.encode k) s1) s1 (fun r1 =>
      ∀ flips, (flips = 0 ∨ ∃ i, i < (outLenField r1).toNat ∧ flips = 2 ^ i) → received.inp = r1.out ^^^ flips →
        Answers (exec (.decode (outLenField r1).toNat) s2) s2 (fun r2 =>
          statusField r2 = 0#2 ∧ r2.out = sent.inp % 2 ^ k ∧ (outLenField r2).toNat = k ∧
          (cleanField r2 = 1#1 ↔ flips = 0) ∧ (flips = 0 → r2.res1 = 0#32 ∧ outcomeField r2 = 0b01#2) ∧
          ∀ i, flips = 2 ^ i → r2.res1.toNat = i + 1 ∧ outcomeField r2 = 0b10#2))

/-! ### Errors -/

/-- 60 R161, R162, R163: the status of every command, the first cause in the order BAD_COMMAND, BAD_LENGTH, BAD_INDEX, and
the all-zero error response, which records nothing of the command. -/
def Obligations.StatusIsTheFirstCause : Prop :=
  ∀ (s : State) (c : Command), s.phase = .busy c → BlockNext s →
    StepAnswers s (fun r =>
      let op := c.cmd.toNat % 4
      let pidx := c.cmd.toNat / 256 % 256
      let len := c.cmd.toNat / 65536
      (statusField r).toNat =
        (if c.cmd.toNat / 4 % 64 ≠ 0 ∨ (pidx ≠ 0 ∧ op ≠ 1) then 1
         else if (op = 2 ∧ kMaxFor Config.nMax < len) ∨ ((op = 1 ∨ op = 3) ∧ Config.nMax < len) then 2
         else if op = 1 ∧ rdec len ≤ pidx then 3
         else 0) ∧
      (statusField r ≠ 0#2 →
        r.res0 = (statusField r).setWidth 32 ∧ cleanField r = 0#1 ∧ outcomeField r = 0#2 ∧ pbitField r = 0#1 ∧
        rField r = 0#5 ∧ outLenField r = 0#16 ∧ r.res1 = 0#32 ∧ r.out = 0))

/-! ### The machine -/

/-- 10 R30, 70 R190, R192: the state after reset. (That nothing is presented, observed or scheduled is the model's choice,
log entry 3.) -/
def Obligations.ResetLeavesReadyAndNoResponse : Prop :=
  State.reset.phase = .ready ∧ State.reset.respPort = none ∧ State.reset.cmdPort = none ∧
  State.reset.observed = [] ∧ State.reset.moves = [] ∧ readResponse State.reset = .fault .responseUndefined

/-- The invariant holds at reset. (Its clauses on the port, the schedule and the record hold there because State.reset has
them empty: the model's choice, log entry 3.) -/
def Obligations.InvariantHoldsAtReset : Prop := StateInv State.reset

/-- 20 R44, 30 R66..R71, 60 R163: every step keeps the invariant: operand vectors have N_MAX bits, every response ever
observed is well formed, and the response port shows the last of them. (That the port shows it until the next delivery or a
reset is the model's choice, log entry 18.) -/
def Obligations.EveryStepKeepsTheInvariant : Prop :=
  ∀ s t : State, StateInv s → step s = .next t → StateInv t

/-- 60 R160, 70 R199: no step stops: from every state whatever, the step is a next state. With no command to accept
the block idles, and the step changes nothing but the schedule: the model's choice, log entry 12 (and 18, for the response port
that stays). -/
def Obligations.NoStepEverStops : Prop :=
  (∀ s : State, ∃ t, step s = .next t) ∧
  ∀ s : State, s.phase = .ready → s.cmdPort = none → BlockNext s → step s = .next { s with moves := s.moves.tail }

/-- A step runs the decoded command: when the block moves and the held word decodes, the step is `exec` of the command, with
the entry of the schedule (the model's own, log entry 2) used up. -/
def Obligations.StepRunsTheDecodedCommand : Prop :=
  ∀ (s : State) (held : Command) (i : Instr), s.phase = .busy held → BlockNext s → decode held.cmd = .instr i →
    step s = exec i { s with moves := s.moves.tail }

/-- The table word that the model places (the model's own placement, log entry 7) is what the next step runs, from every
state. -/
def Obligations.PlacedWordRunsNext : Prop :=
  ∀ (s : State) (nbits w : Nat) (i : Instr), decodeTableWord nbits w = some i →
    step (s.withFetchWord nbits w) = exec i (s.withFetchWord nbits w)

/-- 10 R23, 20 R46, 70 R194: before acceptance the last value the host presents is the one captured, whole; after it,
nothing the host puts on the port changes the response, and the host's read of the response port answers it. (That the last
offer counts, that it may be withdrawn, and that acceptance consumes it, is the model's choice, log entry 11; that acceptance
leaves the response port as it is, log entry 18.) -/
def Obligations.OperandsAreCapturedAtAcceptance : Prop :=
  (∀ (s : State) (ms rest : List Move) (c : Command), s.phase = .ready → (∀ m ∈ ms, m.isQuiet = true) →
    s.moves = ms ++ .block :: rest → portAfter s.cmdPort ms = some c →
    ∃ t, runSteps (ms.length + 1) s = .next t ∧ t.phase = .busy c ∧ t.cmdPort = none ∧
      t.respPort = s.respPort ∧ t.observed = s.observed ∧ t.moves = rest) ∧
  ∀ (s : State) (ms rest : List Move) (held : Command), s.phase = .busy held → (∀ m ∈ ms, m.isQuiet = true) →
    s.moves = ms ++ .block :: rest →
    ∃ t, runSteps (ms.length + 1) s = .next t ∧ t.phase = .ready ∧ readResponse t = .next (responseTo held) ∧
      t.respPort = some (responseTo held) ∧ t.observed = s.observed ++ [responseTo held] ∧
      t.cmdPort = portAfter s.cmdPort ms ∧ t.moves = rest

/-- 70 R195, 10 R23: while BUSY no step accepts a command: the held command stays until its response or a reset. (That
an offer made meanwhile stays on the port is the model's choice, log entry 11; that the response port keeps the last response
meanwhile, log entry 18.) -/
def Obligations.BusyAcceptsNoCommand : Prop :=
  ∀ (s t : State) (held : Command), s.phase = .busy held → step s = .next t →
    t.phase = .busy held ∧ t.observed = s.observed ∧ t.respPort = s.respPort ∨
    t.phase = .ready ∧ t.cmdPort = s.cmdPort ∧
      (t.respPort = some (responseTo held) ∧ t.observed = s.observed ++ [responseTo held] ∨
        t.respPort = none ∧ t.observed = s.observed ∧ s.moves.head? = some .reset)

/-- 70 R190, R192: a reset at any moment makes the block READY, answers nothing, and leaves no response to read; where the
response port shows a response, the host's read answers it (how long it shows one: the model's choice, log entry 18). (That an
offer not yet accepted stays on the port is the model's choice, log entry 11.) -/
def Obligations.ResetDiscardsTheCommandInFlight : Prop :=
  (∀ (s : State) (rest : List Move), s.moves = .reset :: rest →
    ∃ t, step s = .next t ∧ t.phase = .ready ∧ t.observed = s.observed ∧ t.cmdPort = s.cmdPort ∧ t.moves = rest ∧
      readResponse t = .fault .responseUndefined) ∧
  ∀ (s : State) (r : Response), s.respPort = some r → readResponse s = .next r

/-- 70 R199, 00 R9: every accepted command is answered, after whatever finite delay the schedule holds, unless a reset cuts
it off. (The schedule is the model's own, log entries 2 and 3.) -/
def Obligations.EveryAcceptedCommandIsAnswered : Prop :=
  ∀ (s : State) (held : Command), s.phase = .busy held → .reset ∉ s.moves →
    ∃ n, n ≤ s.moves.length + 1 ∧ ∃ t, runSteps n s = .next t ∧ t.phase = .ready ∧
      t.respPort = some (responseTo held) ∧ t.observed = s.observed ++ [responseTo held]

/-- 10 R22, 20 R44: equal CMD words and equal IN bits below the operand length give equal responses, whatever else the two
states hold, and OUT is 0 at and above OUT_LEN. -/
def Obligations.ResponseDependsOnTheOperandsAlone : Prop :=
  ∀ (s1 s2 : State) (c1 c2 : Command), s1.phase = .busy c1 → s2.phase = .busy c2 → BlockNext s1 → BlockNext s2 →
    c1.cmd = c2.cmd →
    (∀ i, i < (if c1.cmd.toNat % 4 = 0 then 0 else c1.cmd.toNat / 65536) → c1.inp.testBit i = c2.inp.testBit i) →
    ∃ t1 t2 r, step s1 = .next t1 ∧ step s2 = .next t2 ∧ t1.respPort = some r ∧ t2.respPort = some r ∧
      (∀ i, (outLenField r).toNat ≤ i → r.out.testBit i = false) ∧ (statusField r ≠ 0#2 → outLenField r = 0#16)

/-- 20 R50, 70 R200, 00 R9: a sequence of commands is answered by one response per command, in the order of the commands, for
every delay of every response, from every state that is READY; it leaves PHASE READY. (The schedule and the record of
responses are the model's own, log entries 2 and 3.) -/
def Obligations.CommandSequenceIsAnsweredInOrder : Prop :=
  ∀ (cs : List (Command × Nat)) (s : State), s.phase = .ready → s.moves = commandSchedule cs →
    ∃ t, runSteps (commandSchedule cs).length s = .next t ∧ t.phase = .ready ∧ t.moves = [] ∧
      t.observed = s.observed ++ cs.map (fun c => responseTo c.1)

/-- The model's choice (log entry 6): no command is performed without a captured command. -/
def Obligations.NothingRunsWithoutACapturedCommand : Prop :=
  ∀ (i : Instr) (s : State), s.phase = .ready → exec i s = .fault .noCommandHeld
end

