-- ==== Sys2Proof/Laws/Operands.lean ====
section
/-! SUPPORT. Sequences and vectors: what `operand` and `seqValue` give (20 R42..R44), and the elements of a sequence. -/

namespace Sys2Proof.Machine

@[simp] theorem length_operand (v : Nat) (n : Nat) : (operand v n).length = n := by simp [operand]

theorem elem_operand (v : Nat) (n i : Nat) : elem (operand v n) i = (decide (i < n) && v.testBit i) := by
  unfold elem operand
  by_cases h : i < n <;> simp [h]

theorem elem_of_length_le (c : BitSeq) (i : Nat) (h : c.length ≤ i) : elem c i = false := by
  simp [elem, List.getD_eq_getElem?_getD, List.getElem?_eq_none h]

theorem elem_eq_getElem (w : BitSeq) (i : Nat) (h : i < w.length) : elem w i = w[i] := by
  simp [elem, List.getD_eq_getElem?_getD, h]

theorem elem_set (c : BitSeq) (i j : Nat) (b : Bool) :
    elem (c.set i b) j = if i = j ∧ j < c.length then b else elem c j := by
  simp only [elem, List.getD_eq_getElem?_getD, List.getElem?_set]
  by_cases h : i = j
  · subst h
    by_cases hl : i < c.length <;> simp [hl]
  · simp [h]

/-- Two sequences of one length with the same elements are equal. -/
theorem seq_ext (c d : BitSeq) (hl : c.length = d.length) (h : ∀ i, i < c.length → elem c i = elem d i) : c = d := by
  apply List.ext_getElem hl
  intro i h1 h2
  rw [← elem_eq_getElem c i h1, ← elem_eq_getElem d i h2, h i h1]

/-- Bit i of the value of a sequence is its element i (20 R42, R43). -/
theorem testBit_seqValue (c : BitSeq) (i : Nat) : (seqValue c).testBit i = elem c i := by
  induction c generalizing i with
  | nil => simp [seqValue, elem]
  | cons b c ih =>
    cases i with
    | zero => cases b <;> simp [seqValue, elem, Nat.testBit_zero]
    | succ i =>
      have : (b.toNat + 2 * seqValue c) / 2 = seqValue c := by cases b <;> simp; omega
      rw [seqValue, Nat.testBit_succ, this, ih]
      simp [elem]

theorem seqValue_lt (c : BitSeq) : seqValue c < 2 ^ c.length := by
  induction c with
  | nil => simp [seqValue]
  | cons b c ih =>
    have hb : b.toNat < 2 := by cases b <;> decide
    have hp : 2 ^ (b :: c).length = 2 ^ c.length * 2 := by rw [List.length_cons, Nat.pow_succ]
    rw [hp, seqValue]
    omega

/-- The sequence a vector carries, read back (20 R42). -/
theorem operand_seqValue (c : BitSeq) : operand (seqValue c) c.length = c := by
  apply seq_ext
  · simp
  · intro i h
    simp at h
    simp [elem_operand, testBit_seqValue, h]

/-- The operand sequence depends only on the bits below its length (20 R44). -/
theorem operand_congr (v w : Nat) (n : Nat) (h : ∀ i, i < n → v.testBit i = w.testBit i) : operand v n = operand w n := by
  simp only [operand]
  apply List.map_congr_left
  intro i hi
  exact h i (List.mem_range.mp hi)

end Sys2Proof.Machine
end

