-- ==== Sys2Proof/Laws/State.lean ====
section
/-! SUPPORT. One lemma per field per update of the state. -/

namespace Sys2Proof.Machine

variable (r : Response) (c : Command) (s : State)

@[simp] theorem deliver_phase : (deliver r s).phase = .ready := rfl
@[simp] theorem deliver_cmdPort : (deliver r s).cmdPort = s.cmdPort := rfl
@[simp] theorem deliver_respPort : (deliver r s).respPort = some r := rfl
@[simp] theorem deliver_observed : (deliver r s).observed = s.observed ++ [r] := rfl
@[simp] theorem deliver_moves : (deliver r s).moves = s.moves := rfl

@[simp] theorem accept_phase : (accept c s).phase = .busy c := rfl
@[simp] theorem accept_cmdPort : (accept c s).cmdPort = none := rfl
@[simp] theorem accept_respPort : (accept c s).respPort = s.respPort := rfl
@[simp] theorem accept_observed : (accept c s).observed = s.observed := rfl
@[simp] theorem accept_moves : (accept c s).moves = s.moves := rfl

@[simp] theorem resetBlock_phase : (resetBlock s).phase = .ready := rfl
@[simp] theorem resetBlock_cmdPort : (resetBlock s).cmdPort = s.cmdPort := rfl
@[simp] theorem resetBlock_respPort : (resetBlock s).respPort = none := rfl
@[simp] theorem resetBlock_observed : (resetBlock s).observed = s.observed := rfl
@[simp] theorem resetBlock_moves : (resetBlock s).moves = s.moves := rfl

@[simp] theorem holdCommand_phase : (holdCommand c s).phase = .busy c := rfl
@[simp] theorem holdCommand_cmdPort : (holdCommand c s).cmdPort = s.cmdPort := rfl
@[simp] theorem holdCommand_respPort : (holdCommand c s).respPort = s.respPort := rfl
@[simp] theorem holdCommand_observed : (holdCommand c s).observed = s.observed := rfl
@[simp] theorem holdCommand_moves : (holdCommand c s).moves = [] := rfl

@[simp] theorem respond_res0 (f : ResultFields) : (respond f).res0 = packRes0 f := rfl
@[simp] theorem respond_res1 (f : ResultFields) : (respond f).res1 = BitVec.ofNat 32 f.syndrome := rfl
@[simp] theorem respond_out (f : ResultFields) : (respond f).out = seqValue f.out := rfl

@[simp] theorem errorResponse_res0 (st : Status) : (errorResponse st).res0 = (statusCode st).setWidth 32 := rfl
@[simp] theorem errorResponse_res1 (st : Status) : (errorResponse st).res1 = 0#32 := rfl
@[simp] theorem errorResponse_out (st : Status) : (errorResponse st).out = 0 := rfl

end Sys2Proof.Machine
end

