-- ==== Sys2Proof/Laws/Flags.lean ====
section
/-! SUPPORT. The fields of the response words: what `respond` and `errorResponse` put into each (30 R66, R67). -/

namespace Sys2Proof.Machine

/-- RES0 as a number, from its fields (30 R66). -/
theorem packRes0_toNat (f : ResultFields) :
    (packRes0 f).toNat = (statusCode f.status).toNat + 4 * f.clean.toNat + 8 * (outcomeCode f.outcome).toNat
      + 32 * f.pbit.toNat + 64 * (f.r % 32) + 65536 * (f.outLen % 65536) := by
  have h1 : (statusCode f.status).toNat < 4 := (statusCode f.status).isLt
  have h2 : (outcomeCode f.outcome).toNat < 4 := (outcomeCode f.outcome).isLt
  have h3 : f.clean.toNat < 2 := by cases f.clean <;> decide
  have h4 : f.pbit.toNat < 2 := by cases f.pbit <;> decide
  have h5 : f.r % 32 < 32 := Nat.mod_lt _ (by decide)
  have happ : ∀ (m n : Nat) (x : BitVec m) (y : BitVec n), (x ++ y).toNat = 2 ^ n * x.toNat + y.toNat := by
    intro m n x y
    rw [BitVec.toNat_append, Nat.shiftLeft_eq, Nat.mul_comm, Nat.two_pow_add_eq_or_of_lt y.isLt]
  simp only [packRes0, happ, BitVec.toNat_ofNat, BitVec.toNat_ofBool]
  omega

/-- A field of RES0, by division and remainder. -/
theorem extractField_toNat (w : Word) (lo len : Nat) :
    (w.extractLsb' lo len).toNat = w.toNat / 2 ^ lo % 2 ^ len := by
  simp [BitVec.extractLsb'_toNat, Nat.shiftRight_eq_div_pow]

theorem respond_fields (f : ResultFields) (hr : f.r < 32) (hl : f.outLen < 65536) :
    statusField (respond f) = statusCode f.status ∧ cleanField (respond f) = BitVec.ofBool f.clean ∧
    outcomeField (respond f) = outcomeCode f.outcome ∧ pbitField (respond f) = BitVec.ofBool f.pbit ∧
    (rField (respond f)).toNat = f.r ∧ rsvRes0Field (respond f) = 0#5 ∧
    (outLenField (respond f)).toNat = f.outLen := by
  have h := packRes0_toNat f
  have h1 : (statusCode f.status).toNat < 4 := (statusCode f.status).isLt
  have h2 : (outcomeCode f.outcome).toNat < 4 := (outcomeCode f.outcome).isLt
  have h3 : f.clean.toNat < 2 := by cases f.clean <;> decide
  have h4 : f.pbit.toNat < 2 := by cases f.pbit <;> decide
  refine ⟨?_, ?_, ?_, ?_, ?_, ?_, ?_⟩ <;>
    first
      | apply BitVec.eq_of_toNat_eq
      | skip
  all_goals
    simp only [statusField, cleanField, outcomeField, pbitField, rField, rsvRes0Field, outLenField, respond_res0,
      extractField_toNat, h, BitVec.toNat_ofBool, BitVec.toNat_ofNat]
    omega

theorem errorResponse_fields (st : Status) :
    statusField (errorResponse st) = statusCode st ∧ cleanField (errorResponse st) = 0#1 ∧
    outcomeField (errorResponse st) = 0#2 ∧ pbitField (errorResponse st) = 0#1 ∧
    rField (errorResponse st) = 0#5 ∧ rsvRes0Field (errorResponse st) = 0#5 ∧
    outLenField (errorResponse st) = 0#16 := by
  cases st <;> decide

end Sys2Proof.Machine
end

