-- ==== Sys2Proof/Laws/ParityCount.lean ====
section
/-! SUPPORT. The two counting loops: with enough turns left, a loop that starts below its goal ends at the least
number that meets its condition (40 R90, R92; 43 R130). -/

namespace Sys2Proof.Machine

theorem pcountLoop_spec (k turns r : Nat) (hgoal : k + (r + turns) + 1 ≤ 2 ^ (r + turns)) :
    r ≤ pcountLoop k turns r ∧ k + pcountLoop k turns r + 1 ≤ 2 ^ pcountLoop k turns r ∧
    ∀ q, r ≤ q → q < pcountLoop k turns r → 2 ^ q < k + q + 1 := by
  induction turns generalizing r with
  | zero => exact ⟨Nat.le_refl _, hgoal, fun q h1 h2 => absurd h2 (Nat.not_lt.mpr h1)⟩
  | succ turns ih =>
    unfold pcountLoop
    split
    · rename_i hlt
      obtain ⟨h1, h2, h3⟩ := ih (r + 1) (by rw [show r + 1 + turns = r + (turns + 1) by omega]; exact hgoal)
      refine ⟨by omega, h2, fun q hq1 hq2 => ?_⟩
      rcases Nat.eq_or_lt_of_le hq1 with rfl | hq
      · exact hlt
      · exact h3 q hq hq2
    · rename_i hge
      exact ⟨Nat.le_refl _, by omega, fun q h1 h2 => absurd h2 (Nat.not_lt.mpr h1)⟩

theorem rdecLoop_spec (n turns r : Nat) (hgoal : n + 1 ≤ 2 ^ (r + turns)) :
    r ≤ rdecLoop n turns r ∧ n + 1 ≤ 2 ^ rdecLoop n turns r ∧
    ∀ q, r ≤ q → q < rdecLoop n turns r → 2 ^ q < n + 1 := by
  induction turns generalizing r with
  | zero => exact ⟨Nat.le_refl _, hgoal, fun q h1 h2 => absurd h2 (Nat.not_lt.mpr h1)⟩
  | succ turns ih =>
    unfold rdecLoop
    split
    · rename_i hlt
      obtain ⟨h1, h2, h3⟩ := ih (r + 1) (by rw [show r + 1 + turns = r + (turns + 1) by omega]; exact hgoal)
      refine ⟨by omega, h2, fun q hq1 hq2 => ?_⟩
      rcases Nat.eq_or_lt_of_le hq1 with rfl | hq
      · exact hlt
      · exact h3 q hq hq2
    · rename_i hge
      exact ⟨Nat.le_refl _, by omega, fun q h1 h2 => absurd h2 (Nat.not_lt.mpr h1)⟩

/-- The bound on the turns of PCOUNT's loop is enough (40 R92). -/
theorem pcount_turns_enough (k : Nat) : k + (1 + (k + 1)) + 1 ≤ 2 ^ (1 + (k + 1)) := by
  have h : k + 1 ≤ 2 ^ k := Nat.lt_two_pow_self
  rw [show 1 + (k + 1) = k + 2 by omega, Nat.pow_add]
  omega

/-- The bound on the turns of RDEC's loop is enough (70 R199). -/
theorem rdec_turns_enough (n : Nat) : n + 1 ≤ 2 ^ (0 + (n + 1)) := by
  have h : n + 1 < 2 ^ (n + 1) := Nat.lt_two_pow_self
  rw [Nat.zero_add]
  omega

end Sys2Proof.Machine
end

