-- ==== Sys2Proof/Laws/ParityEvaluator.lean ====
section
/-! SUPPORT. Slots, covering sets and the evaluator's walk: PEVAL and the check as XOR sums (00 R12, R13; 41 R100,
R102), and how many slots lie below an index. -/

namespace Sys2Proof.Machine

/-- The XOR of f 0, ..., f (n-1) (00 R11). -/
def xorSum (f : Nat → Bool) : Nat → Bool
  | 0 => false
  | n + 1 => xorSum f n ^^ f n

@[simp] theorem xorSum_zero (f : Nat → Bool) : xorSum f 0 = false := rfl

theorem xorSum_succ (f : Nat → Bool) (n : Nat) : xorSum f (n + 1) = (xorSum f n ^^ f n) := rfl

theorem xorSum_congr {f g : Nat → Bool} {n : Nat} (h : ∀ i, i < n → f i = g i) : xorSum f n = xorSum g n := by
  induction n with
  | zero => rfl
  | succ n ih =>
    rw [xorSum_succ, xorSum_succ, h n (Nat.lt_succ_self n), ih fun i hi => h i (Nat.lt_succ_of_lt hi)]

theorem xorSum_xor (f g : Nat → Bool) (n : Nat) :
    xorSum (fun i => f i ^^ g i) n = (xorSum f n ^^ xorSum g n) := by
  induction n with
  | zero => rfl
  | succ n ih =>
    rw [xorSum_succ, xorSum_succ, xorSum_succ, ih]
    cases xorSum f n <;> cases xorSum g n <;> cases f n <;> cases g n <;> rfl

/-- One term alone. -/
theorem xorSum_single (j : Nat) (b : Bool) (n : Nat) :
    xorSum (fun i => decide (i = j) && b) n = (decide (j < n) && b) := by
  induction n with
  | zero => simp
  | succ n ih =>
    rw [xorSum_succ, ih]
    rcases Nat.lt_trichotomy j n with h | h | h
    · simp [h, Nat.lt_succ_of_lt h, Nat.ne_of_gt h]
    · simp [h]
    · simp [Nat.not_lt.mpr (Nat.le_of_lt h), Nat.ne_of_lt h, Nat.not_lt.mpr (Nat.succ_le_of_lt h)]

theorem elem_append_left (c d : BitSeq) (i : Nat) (h : i < c.length) : elem (c ++ d) i = elem c i := by
  simp [elem, List.getD_eq_getElem?_getD, List.getElem?_append_left h]

theorem elem_append_length (c : BitSeq) (b : Bool) : elem (c ++ [b]) c.length = b := by
  simp [elem]

theorem pevalWalk_append (p i : Nat) (c : BitSeq) (b v : Bool) :
    pevalWalk p i (c ++ [b]) v =
      (pevalWalk p i c v ^^ (covers p (i + c.length) && decide (i + c.length ≠ slot p) && b)) := by
  induction c generalizing i v with
  | nil =>
    simp only [List.nil_append, pevalWalk, List.length_nil, Nat.add_zero]
    cases covers p i && decide (i ≠ slot p) <;> simp
  | cons a c ih =>
    simp only [List.cons_append, pevalWalk, ih, List.length_cons]
    rw [show i + 1 + c.length = i + (c.length + 1) by omega]

/-- PEVAL as an XOR sum: the covering set without the slot of p itself (41 R100). -/
theorem peval_eq_xorSum (c : BitSeq) (p : Nat) :
    peval c p = xorSum (fun i => covers p i && decide (i ≠ slot p) && elem c i) c.length := by
  induction c using List.reverseRecOn with
  | nil => rfl
  | append_singleton c b ih =>
    unfold peval at ih ⊢
    rw [pevalWalk_append, ih, List.length_append, List.length_singleton, xorSum_succ, elem_append_length, Nat.zero_add]
    congr 1
    exact xorSum_congr fun i hi => by rw [elem_append_left c [b] i hi]

theorem slot_succ (p : Nat) : slot p + 1 = 2 ^ p := by
  have := Nat.two_pow_pos p
  unfold slot
  omega

theorem slot_injective {p q : Nat} (h : slot p = slot q) : p = q := by
  have h2 : 2 ^ p = 2 ^ q := by rw [← slot_succ, ← slot_succ, h]
  exact Nat.pow_right_injective (Nat.le_refl 2) h2

/-- The slot of q lies in the covering set of p only for q = p (00 R13). -/
theorem covers_slot (p q : Nat) : covers p (slot q) = decide (q = p) := by
  unfold covers
  rw [slot_succ, Nat.testBit_two_pow]

/-- The check is the XOR over the whole covering set (41 R102). -/
theorem check_eq_xorSum (c : BitSeq) (p : Nat) (h : slot p < c.length) :
    check c p = xorSum (fun i => covers p i && elem c i) c.length := by
  have hs := xorSum_single (slot p) (elem c (slot p)) c.length
  simp only [h, decide_true, Bool.true_and] at hs
  rw [check, peval_eq_xorSum]
  conv_lhs => rw [← hs]
  rw [← xorSum_xor]
  refine xorSum_congr fun i _ => ?_
  by_cases hi : i = slot p
  · subst hi
    simp [covers_slot]
  · simp [hi]

/-- A data slot is an index that is no parity slot (00 R12). -/
theorem isDataSlot_iff (i : Nat) : isDataSlot i = true ↔ ∀ p, i ≠ slot p := by
  have h := Nat.and_sub_one_eq_zero_iff_isPowerOfTwo (n := i + 1) (Nat.succ_ne_zero i)
  rw [Nat.add_sub_cancel, Nat.and_comm] at h
  simp only [isDataSlot, ne_eq, decide_eq_true_eq, h, Nat.isPowerOfTwo, not_exists]
  refine forall_congr' fun p => ?_
  rw [← slot_succ p]
  omega

theorem isDataSlot_slot (p : Nat) : isDataSlot (slot p) = false := by
  rw [Bool.eq_false_iff]
  intro h
  exact (isDataSlot_iff (slot p)).mp h p rfl

theorem exists_slot_of_not_dataSlot (i : Nat) (h : isDataSlot i = false) : ∃ p, i = slot p := by
  by_contra hc
  rw [(isDataSlot_iff i).mpr fun p hp => hc ⟨p, hp⟩] at h
  cases h

/-- How many data slots lie below n. -/
def dataSlotsBelow : Nat → Nat
  | 0 => 0
  | n + 1 => dataSlotsBelow n + (isDataSlot n).toNat

theorem rdec_pow (n : Nat) : n + 1 ≤ 2 ^ rdec n := (rdecLoop_spec n (n + 1) 0 (rdec_turns_enough n)).2.1

theorem lt_of_lt_rdec (n q : Nat) (h : q < rdec n) : 2 ^ q < n + 1 :=
  (rdecLoop_spec n (n + 1) 0 (rdec_turns_enough n)).2.2 q (Nat.zero_le q) h

theorem rdec_eq_of (n r : Nat) (h1 : n + 1 ≤ 2 ^ r) (h2 : ∀ q, q < r → 2 ^ q < n + 1) : rdec n = r := by
  rcases Nat.lt_trichotomy (rdec n) r with h | h | h
  · have := h2 _ h; have := rdec_pow n; omega
  · exact h
  · have := lt_of_lt_rdec n r h; omega

theorem rdec_succ (n : Nat) : rdec (n + 1) = rdec n + (!isDataSlot n).toNat := by
  cases hd : isDataSlot n with
  | true =>
    have hne : n + 1 ≠ 2 ^ rdec n := by
      intro h
      exact (isDataSlot_iff n).mp hd (rdec n) (by have := slot_succ (rdec n); omega)
    refine rdec_eq_of _ _ ?_ fun q hq => ?_
    · have := rdec_pow n; simp; omega
    · have := lt_of_lt_rdec n q (by simpa using hq); omega
  | false =>
    obtain ⟨p, hp⟩ := exists_slot_of_not_dataSlot n hd
    have hp2 : n + 1 = 2 ^ p := by rw [hp, slot_succ]
    have hr : rdec n = p := rdec_eq_of n p (by omega) fun q hq => by
      rw [hp2]; exact Nat.pow_lt_pow_right (by decide) hq
    rw [hr]
    refine rdec_eq_of _ _ ?_ fun q hq => ?_
    · simp [Nat.pow_succ]; have := Nat.two_pow_pos p; omega
    · have : 2 ^ q ≤ 2 ^ p := Nat.pow_le_pow_right (by decide) (by simp at hq; omega)
      omega

/-- The parity slots below n number RDEC(n) (42 R116). -/
theorem dataSlotsBelow_add_rdec (n : Nat) : dataSlotsBelow n + rdec n = n := by
  induction n with
  | zero => rfl
  | succ n ih =>
    rw [dataSlotsBelow, rdec_succ]
    cases isDataSlot n <;> simp <;> omega

end Sys2Proof.Machine
end

