-- ==== Sys2Proof/Laws/Counting.lean ====
section
/-! SUPPORT. The parity of a count is an XOR sum (00 R11). -/

namespace Sys2Proof.Machine

theorem oddCount_eq_xorSum (n : Nat) (f : Nat → Bool) : oddCount n f = xorSum f n := by
  induction n with
  | zero => rfl
  | succ n ih =>
    rw [xorSum_succ, ← ih]
    unfold oddCount
    rw [List.range_succ, List.filter_append, List.length_append]
    cases h : f n with
    | false => simp [h]
    | true =>
      simp only [h, List.filter_singleton, Bool.cond_true, List.length_singleton, Bool.xor_true]
      rw [← decide_not]
      congr 1
      rw [eq_iff_iff]
      omega

end Sys2Proof.Machine
end

