-- ==== Sys2Proof/Laws/PerInstr.lean ====
section
/-! SUPPORT. Per command: the encoded word lies in the command's row of the opcode table (30_encoding.md R72). -/

namespace Sys2Proof.Laws.RowMatch

/-- The word of the command matches its own row. -/
def Statement (i : Instr) : Prop := (rowOf i).fits (encode i) = true

theorem fits_of_toNat (row : OpcodeRow) (cmd : Word) (n : Nat) (hm : row.mask = BitVec.ofNat 32 (2 ^ n - 1))
    (h : cmd.toNat % 2 ^ n = row.pattern.toNat) (hn : n ≤ 32) : row.fits cmd = true := by
  unfold OpcodeRow.fits
  rw [decide_eq_true_eq, hm]
  apply BitVec.eq_of_toNat_eq
  rw [BitVec.toNat_and, BitVec.toNat_ofNat, Nat.mod_eq_of_lt, Nat.and_two_pow_sub_one_eq_mod, h]
  have h1 : 0 < 2 ^ n := Nat.two_pow_pos n
  have h2 : 2 ^ n ≤ 2 ^ 32 := Nat.pow_le_pow_right (by decide) hn
  omega

/-- The word of `cmdWord` as a number (30 R60). -/
theorem cmdWord_toNat (len pidx : Nat) (op : BitVec 2) :
    (cmdWord len pidx op).toNat = 65536 * (len % 65536) + 256 * (pidx % 256) + op.toNat := by
  have happ : ∀ (m n : Nat) (x : BitVec m) (y : BitVec n), (x ++ y).toNat = 2 ^ n * x.toNat + y.toNat := by
    intro m n x y
    rw [BitVec.toNat_append, Nat.shiftLeft_eq, Nat.mul_comm, Nat.two_pow_add_eq_or_of_lt y.isLt]
  simp only [cmdWord, happ, BitVec.toNat_ofNat]
  omega

theorem pcount (k : Nat) : Statement (.pcount k) := by
  refine fits_of_toNat _ _ 16 rfl ?_ (by decide)
  simp only [encode, cmdWord_toNat, rowOf, BitVec.toNat_ofNat]
  omega

theorem peval (p n : Nat) : Statement (.peval p n) := by
  refine fits_of_toNat _ _ 8 rfl ?_ (by decide)
  simp only [encode, cmdWord_toNat, rowOf, BitVec.toNat_ofNat]
  omega

theorem encode (k : Nat) : Statement (.encode k) := by
  refine fits_of_toNat _ _ 16 rfl ?_ (by decide)
  simp only [Sys2Proof.encode, cmdWord_toNat, rowOf, BitVec.toNat_ofNat]
  omega

theorem decode (n : Nat) : Statement (.decode n) := by
  refine fits_of_toNat _ _ 16 rfl ?_ (by decide)
  simp only [Sys2Proof.encode, cmdWord_toNat, rowOf, BitVec.toNat_ofNat]
  omega

end Sys2Proof.Laws.RowMatch
end

