-- ==== Sys2Proof/Laws/Decode.lean ====
section
/-! SUPPORT. The fields of a command word by division and remainder, and `decode` in terms of them (30 R60, R72). -/

namespace Sys2Proof

theorem cmdFields_toNat (cmd : Word) :
    (opField cmd).toNat = cmd.toNat % 4 ∧ (rsvField cmd).toNat = cmd.toNat / 4 % 64 ∧
    pidxField cmd = cmd.toNat / 256 % 256 ∧ lenField cmd = cmd.toNat / 65536 := by
  have h := cmd.isLt
  simp only [opField, rsvField, pidxField, lenField, Machine.extractField_toNat]
  omega

theorem decode_eq_of_toNat (cmd : Word) : decode cmd =
    if cmd.toNat / 4 % 64 ≠ 0 then .badCommand .reservedNonzero
    else if cmd.toNat % 4 ≠ 1 ∧ cmd.toNat / 256 % 256 ≠ 0 then .badCommand .indexNonzero
    else if cmd.toNat % 4 = 0 then .instr (.pcount (cmd.toNat / 65536))
    else if cmd.toNat % 4 = 1 then .instr (.peval (cmd.toNat / 256 % 256) (cmd.toNat / 65536))
    else if cmd.toNat % 4 = 2 then .instr (.encode (cmd.toNat / 65536))
    else .instr (.decode (cmd.toNat / 65536)) := by
  obtain ⟨h1, h2, h3, h4⟩ := cmdFields_toNat cmd
  unfold decode
  simp only [← h1, ← h2, h3, h4, ← BitVec.toNat_inj, BitVec.toNat_ofNat, ne_eq]

end Sys2Proof
end

