-- ==== Sys2Proof/Laws/Decoder.lean ====
section
/-! SUPPORT. What each step of the decoder leaves: the syndrome's bits (43 R131), the corrector (43 R133), the
extractor (43 R136). -/

namespace Sys2Proof.Machine

/-- The syndrome loop over the first m parity indices: it changes nothing but the syndrome, whose bit p is the check of p
(43 R131). -/
theorem syndromeWalk_spec (c : BitSeq) (m : Nat) :
    let k := (List.range m).foldl syndromeStep (decodeSizes c)
    k.r = rdec c.length ∧ k.n = c.length ∧ k.w = c ∧ k.s < 2 ^ m ∧
    ∀ p, k.s.testBit p = (decide (p < m) && check c p) := by
  induction m with
  | zero => exact ⟨rfl, rfl, rfl, by simp [decodeSizes], fun p => by simp [decodeSizes]⟩
  | succ m ih =>
    obtain ⟨hr, hn, hw, hs, hb⟩ := ih
    simp only [List.range_succ, List.foldl_append, List.foldl_cons, List.foldl_nil]
    have hpow : (2 : Nat) ^ (m + 1) = 2 * 2 ^ m := by rw [Nat.pow_succ, Nat.mul_comm]
    generalize (List.range m).foldl syndromeStep (decodeSizes c) = k at *
    unfold syndromeStep
    rw [hw]
    split
    · rename_i hne
      refine ⟨hr, hn, rfl, ?_, fun p => ?_⟩
      · show _ + 2 ^ m < _
        omega
      · have hc : check c m = true := by
          unfold check
          cases h1 : peval c m <;> cases h2 : elem c (slot m) <;> simp_all
        show Nat.testBit (_ + 2 ^ m) p = _
        rw [Nat.add_comm]
        rcases Nat.lt_trichotomy p m with h | h | h
        · rw [Nat.testBit_two_pow_add_gt h, hb]
          simp [h, Nat.lt_succ_of_lt h]
        · subst h
          rw [Nat.testBit_two_pow_add_eq, hb]
          simp [hc]
        · rw [Nat.testBit_lt_two_pow]
          · simp [Nat.not_lt.mpr (Nat.succ_le_of_lt h)]
          · have : 2 ^ (m + 1) ≤ 2 ^ p := Nat.pow_le_pow_right (by decide) h
            omega
    · rename_i heq
      refine ⟨hr, hn, hw, by omega, fun p => ?_⟩
      rw [hb]
      rcases Nat.lt_trichotomy p m with h | h | h
      · simp [h, Nat.lt_succ_of_lt h]
      · subst h
        have hc : check c p = false := by
          unfold check
          cases h1 : peval c p <;> cases h2 : elem c (slot p) <;> simp_all
        simp [hc]
      · simp [Nat.not_lt.mpr (Nat.le_of_lt h), Nat.not_lt.mpr (Nat.succ_le_of_lt h)]

theorem assembleSyndrome_spec (c : BitSeq) :
    (assembleSyndrome (decodeSizes c)).r = rdec c.length ∧ (assembleSyndrome (decodeSizes c)).n = c.length ∧
    (assembleSyndrome (decodeSizes c)).w = c :=
  have h := syndromeWalk_spec c (rdec c.length)
  ⟨h.1, h.2.1, h.2.2.1⟩

theorem elem_flipAt (c : BitSeq) (q i : Nat) (hq : q < c.length) : elem (flipAt c q) i = (elem c i ^^ decide (i = q)) := by
  rw [flipAt, elem_set]
  by_cases h : q = i
  · subst h; simp [hq]
  · simp [h, Ne.symm h]

@[simp] theorem length_flipAt (c : BitSeq) (q : Nat) : (flipAt c q).length = c.length := by simp [flipAt]

/-- The corrector (43 R133): it leaves r, n and the syndrome, and writes at most the one bit that `locate` names. -/
theorem correct_spec (k : DecodeWork) :
    (correct k).r = k.r ∧ (correct k).n = k.n ∧ (correct k).s = k.s ∧
    (correct k).w = if 1 ≤ k.s ∧ k.s ≤ k.n then flipAt k.w (k.s - 1) else k.w := by
  unfold correct locate
  by_cases h0 : k.s = 0
  · simp [h0]
  · by_cases h1 : k.s ≤ k.n
    · simp [h0, h1, Nat.one_le_iff_ne_zero.mpr h0]
    · simp [h0, h1]

theorem flipAt_flipAt (c : BitSeq) (q : Nat) (hq : q < c.length) : flipAt (flipAt c q) q = c := by
  apply seq_ext
  · simp
  · intro j _
    rw [elem_flipAt _ _ _ (by simpa using hq), elem_flipAt _ _ _ hq]
    cases elem c j <;> cases decide (j = q) <;> rfl

/-- The working state of DECODE when the operation ends, in terms of the syndrome (43 R131..R133). -/
theorem decodeWork_eq (c : BitSeq) :
    (decodeWork c).s = syndrome c ∧ (decodeWork c).n = c.length ∧
    (decodeWork c).w = if 1 ≤ syndrome c ∧ syndrome c ≤ c.length then flipAt c (syndrome c - 1) else c := by
  obtain ⟨_, h2, h3⟩ := assembleSyndrome_spec c
  obtain ⟨_, g2, g3, g4⟩ := correct_spec (assembleSyndrome (decodeSizes c))
  rw [h2, h3] at g4
  exact ⟨g3, g2.trans h2, g4⟩

/-- The response of DECODE to a length it accepts (43 R139). -/
theorem decodeResponse_of_le (nMax n inp : Nat) (h : n ≤ nMax) :
    decodeResponse nMax n inp = respond {
      clean := decide (syndrome (operand inp n) = 0), outcome := outcomeOf (syndrome (operand inp n)) n, r := rdec n,
      outLen := n - rdec n, syndrome := syndrome (operand inp n), out := extract (decodeWork (operand inp n)).w } := by
  obtain ⟨h1, h2, _⟩ := decodeWork_eq (operand inp n)
  simp only [decodeResponse, dec, if_neg (Nat.not_lt.mpr h), h1, h2, length_operand]

theorem extractWalk_append (i : Nat) (w : BitSeq) (b : Bool) :
    extractWalk i (w ++ [b]) = extractWalk i w ++ if isDataSlot (i + w.length) then [b] else [] := by
  induction w generalizing i with
  | nil => simp [extractWalk]
  | cons a w ih =>
    simp only [List.cons_append, extractWalk, ih, List.length_cons, show i + 1 + w.length = i + (w.length + 1) by omega]
    split <;> rfl

/-- The extractor as a list of reads (43 R136). -/
theorem extract_eq (w : BitSeq) : extract w = ((List.range w.length).filter isDataSlot).map (elem w) := by
  induction w using List.reverseRecOn with
  | nil => rfl
  | append_singleton w b ih =>
    unfold extract at ih ⊢
    rw [extractWalk_append, ih, List.length_append, List.length_singleton, List.range_succ, List.filter_append,
      List.map_append, Nat.zero_add]
    congr 1
    · apply List.map_congr_left
      intro i hi
      rw [elem_append_left w [b] i (by simpa using (List.mem_filter.mp hi).1)]
    · cases h : isDataSlot w.length <;> simp [h, elem_append_length]

/-- The data slots below n, listed, number `dataSlotsBelow n`. -/
theorem length_filter_isDataSlot (n : Nat) : ((List.range n).filter isDataSlot).length = dataSlotsBelow n := by
  induction n with
  | zero => rfl
  | succ n ih =>
    rw [List.range_succ, List.filter_append, List.length_append, ih, dataSlotsBelow]
    cases h : isDataSlot n <;> simp [h]

end Sys2Proof.Machine
end

