-- ==== Sys2Proof/Laws/Encoder.lean ====
section
/-! SUPPORT. What each step of the encoder leaves (42 R110..R112), and what an evaluator value does not read (42 R115). -/

namespace Sys2Proof.Machine

theorem pcount_pos (k : Nat) : 1 ≤ pcount k := (pcountLoop_spec k (k + 1) 1 (pcount_turns_enough k)).1

theorem pcount_pow (k : Nat) : k + pcount k + 1 ≤ 2 ^ pcount k :=
  (pcountLoop_spec k (k + 1) 1 (pcount_turns_enough k)).2.1

theorem lt_of_lt_pcount (k q : Nat) (h1 : 1 ≤ q) (h : q < pcount k) : 2 ^ q < k + q + 1 :=
  (pcountLoop_spec k (k + 1) 1 (pcount_turns_enough k)).2.2 q h1 h

theorem pcount_eq_of (k r : Nat) (h0 : 1 ≤ r) (h1 : k + r + 1 ≤ 2 ^ r)
    (h2 : ∀ q, 1 ≤ q → q < r → 2 ^ q < k + q + 1) : pcount k = r := by
  rcases Nat.lt_trichotomy (pcount k) r with h | h | h
  · have := h2 _ (pcount_pos k) h; have := pcount_pow k; omega
  · exact h
  · have := lt_of_lt_pcount k r h0 h; omega

/-- An evaluator value is unchanged when a parity slot is written: it leaves out its own slot, and no other slot lies in its
covering set (42 R115). -/
theorem peval_set_slot (c : BitSeq) (p q : Nat) (b : Bool) : peval (c.set (slot q) b) p = peval c p := by
  rw [peval_eq_xorSum, peval_eq_xorSum, List.length_set]
  refine xorSum_congr fun i hi => ?_
  rw [elem_set]
  by_cases h : slot q = i
  · subst h
    by_cases hpq : q = p
    · subst hpq; simp
    · simp [covers_slot, hpq]
  · simp [h]

theorem placeStep_fixed (d : BitSeq) (k : EncodeWork) (i : Nat) :
    (placeStep d k i).r = k.r ∧ (placeStep d k i).n = k.n ∧ (placeStep d k i).w.length = k.w.length := by
  unfold placeStep
  split <;> simp

/-- The walk of data placement over the first m storage indices: the cursor has passed the data slots below m, and those
slots hold the data bits in order (42 R111). -/
theorem placeWalk_spec (d : BitSeq) (m : Nat) (hm : m ≤ d.length + pcount d.length) :
    let k := (List.range m).foldl (placeStep d) (encodeSizes d)
    k.r = pcount d.length ∧ k.n = d.length + pcount d.length ∧ k.w.length = d.length + pcount d.length ∧
    k.j = dataSlotsBelow m ∧
    ∀ i, elem k.w i = (decide (i < m) && isDataSlot i && elem d (dataSlotsBelow i)) := by
  induction m with
  | zero =>
    refine ⟨rfl, rfl, by simp [encodeSizes], rfl, fun i => ?_⟩
    simp [encodeSizes, elem, List.getD_eq_getElem?_getD, List.getElem?_replicate]
    split <;> rfl
  | succ m ih =>
    obtain ⟨hr, hn, hl, hj, he⟩ := ih (by omega)
    simp only [List.range_succ, List.foldl_append, List.foldl_cons, List.foldl_nil]
    generalize (List.range m).foldl (placeStep d) (encodeSizes d) = k at *
    obtain ⟨f1, f2, f3⟩ := placeStep_fixed d k m
    refine ⟨f1.trans hr, f2.trans hn, f3.trans hl, ?_, fun i => ?_⟩
    · unfold placeStep dataSlotsBelow
      cases isDataSlot m <;> simp [hj]
    · unfold placeStep
      cases hd : isDataSlot m with
      | false =>
        simp only [Bool.false_eq_true, if_false, he]
        rcases Nat.lt_trichotomy i m with h | h | h
        · simp [h, Nat.lt_succ_of_lt h]
        · subst h; simp [hd]
        · simp [Nat.not_lt.mpr (Nat.le_of_lt h), Nat.not_lt.mpr (Nat.succ_le_of_lt h)]
      | true =>
        simp only [if_true, elem_set, hl, he, hj]
        rcases Nat.lt_trichotomy i m with h | h | h
        · simp [h, Nat.lt_succ_of_lt h, Nat.ne_of_gt h]
        · subst h
          rw [if_pos ⟨rfl, by omega⟩]
          simp [hd]
        · simp [Nat.not_lt.mpr (Nat.le_of_lt h), Nat.ne_of_lt h, Nat.not_lt.mpr (Nat.succ_le_of_lt h)]

/-- Any run of parity fills leaves r, n, the cursor and the length as they were, writes the evaluator value of the placed
codeword into each slot it visits, and leaves every other element (42 R112, R115). -/
theorem fillWalk_spec (k : EncodeWork) (ps : List Nat) :
    let k' := ps.foldl fillStep k
    k'.r = k.r ∧ k'.n = k.n ∧ k'.j = k.j ∧ k'.w.length = k.w.length ∧
    (∀ p, peval k'.w p = peval k.w p) ∧
    ∀ i, i < k.w.length → elem k'.w i = if ∃ p ∈ ps, i = slot p then peval k.w (Nat.log 2 (i + 1)) else elem k.w i := by
  induction ps generalizing k with
  | nil => simp
  | cons q ps ih =>
    obtain ⟨h1, h2, h3, h4, h5, h6⟩ := ih (fillStep k q)
    have hp : ∀ p, peval (fillStep k q).w p = peval k.w p := fun p => peval_set_slot k.w p q _
    have hl : (fillStep k q).w.length = k.w.length := by simp [fillStep]
    refine ⟨h1, h2, h3, h4.trans hl, fun p => (h5 p).trans (hp p), fun i hi => ?_⟩
    rw [List.foldl_cons, h6 i (hl ▸ hi), hp]
    by_cases hq : i = slot q
    · subst hq
      have hlog : Nat.log 2 (slot q + 1) = q := by rw [slot_succ, Nat.log_pow (by decide)]
      have : elem (fillStep k q).w (slot q) = peval k.w q := by simp [fillStep, elem_set, hi]
      rw [this, hlog]
      simp
    · have : elem (fillStep k q).w i = elem k.w i := by simp [fillStep, elem_set, Ne.symm hq]
      simp [this, hq]

/-- Where the counted lengths agree with N_MAX: the greatest k that `kMaxUpTo` may answer (00 R7). -/
theorem kMaxUpTo_spec (nMax top : Nat) (h1 : 1 ≤ nMax) :
    kMaxUpTo nMax top ≤ top ∧ kMaxUpTo nMax top + pcount (kMaxUpTo nMax top) ≤ nMax ∧
    ∀ k, k ≤ top → k + pcount k ≤ nMax → k ≤ kMaxUpTo nMax top := by
  induction top with
  | zero =>
    have h : pcount 0 = 1 := by decide
    refine ⟨Nat.le_refl _, ?_, fun k hk _ => hk⟩
    rw [kMaxUpTo, h, Nat.zero_add]
    exact h1
  | succ top ih =>
    obtain ⟨i1, i2, i3⟩ := ih
    unfold kMaxUpTo
    split
    · rename_i h
      exact ⟨Nat.le_refl _, h, fun k hk _ => hk⟩
    · rename_i h
      refine ⟨Nat.le_succ_of_le i1, i2, fun k hk hf => ?_⟩
      rcases Nat.eq_or_lt_of_le hk with rfl | hlt
      · exact absurd hf h
      · exact i3 k (Nat.lt_succ_iff.mp hlt) hf

end Sys2Proof.Machine
end

