-- ==== Sys2Proof/Laws/Ops.lean ====
section
/-! SUPPORT. What an operation, the plan of a step and a step can do, said once each. -/

namespace Sys2Proof.Machine

/-- An operation on a held command delivers the computed response (10 R23). -/
theorem complete_busy (s : State) (held : Command) (answer : Nat → Response) (h : s.phase = .busy held) :
    complete s answer = .next (deliver (answer held.inp) s) := by
  simp [complete, h]

/-- Every command performed on a held command delivers its response. -/
theorem exec_busy (i : Instr) (s : State) (held : Command) (h : s.phase = .busy held) :
    exec i s = .next (deliver (instrResponse Config.nMax i held.inp) s) := by
  cases i <;> simp [exec, execPcount, execPeval, execEncode, execDecode, instrResponse, complete_busy s held _ h]

/-- What the block's move does (10 R23). -/
inductive BlockMove (s t : State) : Prop where
  | idle (hp : s.phase = .ready) (hc : s.cmdPort = none) (ht : t = s)
  | accepts (c : Command) (hp : s.phase = .ready) (hc : s.cmdPort = some c) (ht : t = accept c s)
  | answers (held : Command) (hp : s.phase = .busy held) (ht : t = deliver (responseTo held) s)

/-- The outcome of a plan. -/
def planOutcome : Plan → Host.Outcome State Fault Refusal
  | .done t => .next t
  | .perform i t => exec i t

theorem step_eq (s : State) : step s = planOutcome (planStep s) := by
  unfold step planOutcome
  cases planStep s <;> rfl

/-- The block's move always ends in a next state, and it is one of three. -/
theorem planBlock_cases (s : State) : ∃ t, planOutcome (planBlock s) = .next t ∧ BlockMove s t := by
  unfold planBlock
  cases hp : s.phase with
  | ready =>
    cases hc : s.cmdPort with
    | none => exact ⟨s, rfl, .idle hp hc rfl⟩
    | some c => exact ⟨_, rfl, .accepts c hp hc rfl⟩
  | busy held =>
    refine ⟨_, ?_, .answers held hp rfl⟩
    unfold responseTo
    dsimp only
    cases decode held.cmd with
    | instr i => exact exec_busy i s held hp
    | badCommand why => rfl

/-- What a step does: the block's move, or a move of the host (00 R17). -/
inductive StepMove (s t : State) : Prop where
  | blockAlone (hm : s.moves = []) (hb : BlockMove s t)
  | blockScheduled (rest : List Move) (hm : s.moves = .block :: rest) (hb : BlockMove { s with moves := rest } t)
  | idle (rest : List Move) (hm : s.moves = .blockIdle :: rest) (ht : t = { s with moves := rest })
  | presents (c : Command) (rest : List Move) (hm : s.moves = .present c :: rest)
      (ht : t = { s with moves := rest, cmdPort := some c })
  | withdraws (rest : List Move) (hm : s.moves = .withdraw :: rest) (ht : t = { s with moves := rest, cmdPort := none })
  | resets (rest : List Move) (hm : s.moves = .reset :: rest) (ht : t = resetBlock { s with moves := rest })

/-- Every step ends in a next state, and it is one of these. -/
theorem step_cases (s : State) : ∃ t, step s = .next t ∧ StepMove s t := by
  rw [step_eq]
  unfold planStep
  match hm : s.moves with
  | [] =>
    obtain ⟨t, h, hb⟩ := planBlock_cases s
    exact ⟨t, h, .blockAlone hm hb⟩
  | .block :: rest =>
    obtain ⟨t, h, hb⟩ := planBlock_cases { s with moves := rest }
    exact ⟨t, h, .blockScheduled rest hm hb⟩
  | .blockIdle :: rest => exact ⟨_, rfl, .idle rest hm rfl⟩
  | .present c :: rest => exact ⟨_, rfl, .presents c rest hm rfl⟩
  | .withdraw :: rest => exact ⟨_, rfl, .withdraws rest hm rfl⟩
  | .reset :: rest => exact ⟨_, rfl, .resets rest hm rfl⟩

/-- The block's move on a held command delivers the response to it (10 R23, 30 R73). -/
theorem step_busy (s : State) (held : Command) (hp : s.phase = .busy held) (hn : BlockNext s) :
    step s = .next (deliver (responseTo held) { s with moves := s.moves.tail }) := by
  have answered : ∀ u t : State, u.phase = .busy held → BlockMove u t → t = deliver (responseTo held) u := by
    intro u t hu hb
    cases hb with
    | idle h => rw [hu] at h; cases h
    | accepts c h => rw [hu] at h; cases h
    | answers c h ht => rw [hu] at h; cases h; exact ht
  obtain ⟨t, ht, hm⟩ := step_cases s
  rw [ht]
  cases hm with
  | blockAlone hm hb => rw [answered s t hp hb, hm, List.tail_nil, ← hm]
  | blockScheduled rest hm hb => rw [answered { s with moves := rest } t hp hb, hm, List.tail_cons]
  | idle rest hm => simp [BlockNext, hm] at hn
  | presents c rest hm => simp [BlockNext, hm] at hn
  | withdraws rest hm => simp [BlockNext, hm] at hn
  | resets rest hm => simp [BlockNext, hm] at hn

theorem runSteps_succ (n : Nat) (s t : State) (h : step s = .next t) : runSteps (n + 1) s = runSteps n t := by
  rw [runSteps, h]

/-- A run over moves of which none moves the block or resets it changes the command port and the schedule, and nothing
else. -/
theorem runSteps_quiet (ms rest : List Move) (s : State) (n : Nat) (hq : ∀ m ∈ ms, m.isQuiet = true)
    (hm : s.moves = ms ++ rest) :
    runSteps (ms.length + n) s = runSteps n { s with moves := rest, cmdPort := portAfter s.cmdPort ms } := by
  induction ms generalizing s with
  | nil =>
    rw [List.nil_append] at hm
    simp [portAfter, ← hm]
  | cons m ms ih =>
    have hcons : s.moves = m :: (ms ++ rest) := hm
    have hq' : ∀ x ∈ ms, x.isQuiet = true := fun x hx => hq x (List.mem_cons_of_mem _ hx)
    have hqm := hq m List.mem_cons_self
    rw [show (m :: ms).length + n = ms.length + n + 1 by rw [List.length_cons]; omega]
    cases m with
    | block => cases hqm
    | reset => cases hqm
    | blockIdle =>
      rw [runSteps_succ _ s { s with moves := ms ++ rest } (by simp [step, planStep, hcons]), ih _ hq' rfl]; rfl
    | present c =>
      rw [runSteps_succ _ s { s with moves := ms ++ rest, cmdPort := some c } (by simp [step, planStep, hcons]),
        ih _ hq' rfl]; rfl
    | withdraw =>
      rw [runSteps_succ _ s { s with moves := ms ++ rest, cmdPort := none } (by simp [step, planStep, hcons]),
        ih _ hq' rfl]; rfl

end Sys2Proof.Machine
end

