-- ==== Sys2Proof/Tests/Slice0.lean ====
section
/-! SUPPORT. The model's own tests: well-formedness, decoding of words written out from 30_encoding.md, single steps against
the vectors of 95_test_vectors.md, and a witness for the hypotheses of every statement. -/

namespace Sys2Proof.Tests

open Sys2Proof.Machine

/-! ### Well-formedness: an ill-formed term for each check (30 R63, R64) -/

theorem test_wf_refuses_pcount_len : (Instr.pcount 65536).wf = false := by decide
theorem test_wf_refuses_peval_pidx : (Instr.peval 256 7).wf = false := by decide
theorem test_wf_refuses_peval_len : (Instr.peval 1 65536).wf = false := by decide
theorem test_wf_refuses_encode_len : (Instr.encode 65536).wf = false := by decide
theorem test_wf_refuses_decode_len : (Instr.decode 65536).wf = false := by decide
theorem test_wf_accepts_the_largest : (Instr.peval 255 65535).wf = true := by decide
theorem test_asmWf_refuses_pidx : asmWf (.peval 256 [true]) = false := by decide

/-! ### Decoding: LEN, PIDX, RSV, OP written out bit by bit from 30 R60 and R61 -/

theorem test_decode_pcount : decode 0b0000000000000100_00000000_000000_00#32 = .instr (.pcount 4) := by decide
theorem test_decode_peval : decode 0b0000000000000111_00000001_000000_01#32 = .instr (.peval 1 7) := by decide
theorem test_decode_encode : decode 0b0000000000000100_00000000_000000_10#32 = .instr (.encode 4) := by decide
theorem test_decode_decode : decode 0b0000000000000111_00000000_000000_11#32 = .instr (.decode 7) := by decide
/-- V-PC24, V-PC23, V-DE35. -/
theorem test_decode_bad : decode 0x00040004#32 = .badCommand .reservedNonzero ∧
    decode 0x00040100#32 = .badCommand .indexNonzero ∧ decode 0x00C8000B#32 = .badCommand .reservedNonzero := by decide
theorem test_decodeTableWord : decodeTableWord 32 0x00070101 = some (.peval 1 7) ∧
    decodeTableWord 32 0x00070007 = none := by decide

/-! ### Single steps -/

/-- A block that has just captured the command. -/
def holding (cmd : Word) (inp : Nat) : State := holdCommand ⟨cmd, inp⟩ State.reset

/-- The response the next step delivers, if it delivers one. -/
def answer (cmd : Word) (inp : Nat) : Option Response :=
  match step (holding cmd inp) with
  | .next t => t.respPort
  | _ => none

/-- V-PC01: the floor PCOUNT(0) = 1. -/
theorem test_step_pcount_zero : answer 0x00000000#32 0 = some ⟨0x00000040#32, 0#32, 0⟩ := by decide
/-- V-PC21: the first k with r = 17, beyond N_MAX or not. -/
theorem test_step_pcount_top : answer 0xFFF00000#32 0 = some ⟨0x00000440#32, 0#32, 0⟩ := by decide
/-- V-PE12: the stored bit does not change the result. -/
theorem test_step_peval_own_slot : answer 0x00020101#32 0x3 = some ⟨0x00000080#32, 0#32, 0⟩ := by decide
/-- V-PE15. -/
theorem test_step_peval_one : answer 0x000F0201#32 0x726C = some ⟨0x00000120#32, 0#32, 0⟩ := by decide
/-- V-EN14: k = 8, n = 12. -/
theorem test_step_encode : answer 0x00080002#32 0x4B = some ⟨0x000C0100#32, 0#32, 0x4D6⟩ := by decide
/-- V-EN17: slot 15 is a parity bit. -/
theorem test_step_encode_slot15 : answer 0x000C0002#32 0x72D = some ⟨0x00110140#32, 0#32, 0x726C⟩ := by decide
/-- V-DE06: a corrected data bit. -/
theorem test_step_decode_corrected : answer 0x00070003#32 0x76 = some ⟨0x000400D0#32, 5#32, 0xD⟩ := by decide
/-- V-DE27: an uncorrectable syndrome, data from the uncorrected copy. -/
theorem test_step_decode_uncorrectable :
    answer 0x000C0003#32 0xCD2 = some ⟨0x00080118#32, 15#32, 0xCA⟩ := by decide
/-- V-DE35: BAD_COMMAND wins over BAD_LENGTH. -/
theorem test_step_bad_command : answer 0x00C8000B#32 0 = some ⟨0x00000001#32, 0#32, 0⟩ := by decide

/-- V-PE21, V-EN19, V-DE33, V-PE19: error statuses and bounds at N_MAX = 128. -/
theorem test_errors_at_128 : pevalResponse 128 9 129 0 = errorResponse .badLength ∧
    encodeResponse 128 121 (2 ^ 121 - 1) = errorResponse .badLength ∧
    decodeResponse 128 129 0 = errorResponse .badLength ∧
    pevalResponse 128 8 128 (2 ^ 128 - 1) = errorResponse .badIndex := by decide
/-- V-DE32: n = N_MAX = 128, the syndrome is 128. -/
theorem test_decode_at_128 : decodeResponse 128 128 (2 ^ 128 - 1) = ⟨0x00780210#32, 128#32, 2 ^ 120 - 1⟩ := by
  decide +kernel

/-! ### Witnesses: a state and operands that meet the hypotheses of each statement -/

theorem len_small (n : Nat) (h : n ≤ 107) : n ≤ Config.nMax := Nat.le_trans h Config.nMax_bounds.1

theorem witness_DecodeOfEncodeIsTheCommand : (Instr.pcount 65535).wf = true ∧ (Instr.peval 255 65535).wf = true ∧
    (Instr.encode 65535).wf = true ∧ (Instr.decode 65535).wf = true := by decide

theorem witness_EncodeOfDecodeIsTheWord : decode 0xFFFFFF01#32 = .instr (.peval 255 65535) := by decide

/-- One word for each clause: RSV = 63; PIDX = 255 with OP 00; then OP 00, 01, 10, 11 with every other field at its bound; two
rows that fit one word. -/
theorem witness_CommandDecodeIsTotalAndUnambiguous :
    (0x000000FC#32).toNat / 4 % 64 ≠ 0 ∧
    ((0x0000FF00#32).toNat / 4 % 64 = 0 ∧ (0x0000FF00#32).toNat % 4 ≠ 1 ∧ (0x0000FF00#32).toNat / 256 % 256 ≠ 0) ∧
    ((0xFFFF0000#32).toNat / 4 % 64 = 0 ∧ (0xFFFF0000#32).toNat % 4 = 0 ∧ (0xFFFF0000#32).toNat / 256 % 256 = 0) ∧
    ((0xFFFFFF01#32).toNat / 4 % 64 = 0 ∧ (0xFFFFFF01#32).toNat % 4 = 1) ∧
    ((0xFFFF0002#32).toNat / 4 % 64 = 0 ∧ (0xFFFF0002#32).toNat % 4 = 2 ∧ (0xFFFF0002#32).toNat / 256 % 256 = 0) ∧
    ((0xFFFF0003#32).toNat / 4 % 64 = 0 ∧ (0xFFFF0003#32).toNat % 4 = 3 ∧ (0xFFFF0003#32).toNat / 256 % 256 = 0) ∧
    rowOf (.decode 0) ∈ opcodeRows ∧ (rowOf (.decode 0)).fits 0xFFFF0003#32 = true := by decide

theorem witness_AssemblerLineIsItsCommand : asmWf (.pcount 65535) = true ∧ asmWf (.peval 255 [true, false]) = true ∧
    asmWf (.encode []) = true ∧ asmWf (.decode [true]) = true := by decide

theorem witness_VectorValueIsSumOfBits : 0x66 < 2 ^ 7 := by decide

theorem witness_ResponseFieldsStandInTheirPlaces : ∃ f : ResultFields, f.r < 32 ∧ f.outLen < 65536 ∧ f.syndrome < 65536 :=
  ⟨{ clean := true, r := 31, outLen := 65535, syndrome := 65535 }, by decide⟩

theorem witness_PcountIsTheLeastCount : 1 ≤ 4 := by decide

theorem witness_PcountIsMonotoneAndMinimal : 4 ≤ 5 ∧ 1 ≤ 4 := by decide

theorem witness_PcountConditionIsAnUpSet : 1 ≤ 3 ∧ 4 + 3 + 1 ≤ 2 ^ 3 := by decide

/-- Bounds of the ranges of 40 R94: r = 2 at k = 1; the ends of the last range. -/
theorem witness_PcountClosedForm : pcount 1 = 2 ∧ 2 ^ (2 - 1) - 2 + 1 ≤ 1 ∧ 1 ≤ 2 ^ 2 - 2 - 1 ∧
    pcount 65520 = 17 ∧ pcount 65519 = 16 := by decide

theorem witness_PcountCompletes : (Instr.pcount 65535).wf = true ∧
    (holding 0xFFFF0000#32 0).phase = .busy ⟨0xFFFF0000#32, 0⟩ := ⟨by decide, rfl⟩

theorem witness_DataSlotsAreTheNonPowers : 8 &&& (8 - 1) = 0 ∧ isDataSlot 2 = true ∧ isDataSlot 3 = false ∧ 2 < 7 := by decide

theorem witness_CoveringSetsAreOneBased : slot 2 < 7 ∧ slot 2 ∈ cover 2 7 ∧ slot 1 ∉ cover 2 7 ∧ 6 < 7 := by decide

/-- Also of `CheckIsXorOfTheWholeCover`: a slot that is the last element, and one that is not. -/
theorem witness_PevalIsXorOfTheCover : slot 1 < [true, true].length ∧ slot 0 < [true, true].length := by decide

theorem witness_CheckIsXorOfTheWholeCover : slot 2 < [true, false, true, true].length := by decide

theorem witness_PevalReadsNoParitySlot : ([true, false, true] : BitSeq).length = [false, true, true].length ∧
    ∀ i, i < 3 → isDataSlot i = true → elem [true, false, true] i = elem [false, true, true] i := by decide

theorem witness_PevalCompletes : 107 ≤ Config.nMax ∧ 6 < rdec 107 ∧
    (holding 0x006B0601#32 0x66).phase = .busy ⟨0x006B0601#32, 0x66⟩ := ⟨len_small _ (by decide), by decide, rfl⟩

theorem witness_PlacementConsumesTheDataInOrder : 4 < 4 + pcount 4 ∧ isDataSlot 4 = true := by decide

theorem witness_EveryCheckPassesInAnyFillOrder : 2 < pcount 4 ∧ [2, 0, 1].Perm (List.range (pcount 4)) := by decide

theorem witness_CodewordSlotsAreCounted : 6 < 4 + pcount 4 ∧ 3 = slot 2 := by decide

theorem witness_CodewordClosedForms : 6 < [true, false, true, true].length + pcount [true, false, true, true].length ∧
    isDataSlot 6 = true ∧ 2 < pcount [true, false, true, true].length := by decide

theorem kMax_at_least_100 : 100 ≤ kMaxFor Config.nMax :=
  have h := Config.nMax_bounds
  (kMaxUpTo_spec Config.nMax Config.nMax (Nat.le_trans (by decide) h.1)).2.2 100 (Nat.le_trans (by decide) h.1)
    (Nat.le_trans (show 100 + pcount 100 ≤ 107 by decide) h.1)

/-- Both bounds of N_MAX, and a length on each side of K_MAX for N_MAX = 128. -/
theorem witness_KMaxIsTheGreatestDataLength : 107 ≤ 107 ∧ 107 ≤ 65535 ∧ 65535 ≤ 65535 ∧ 120 + pcount 120 ≤ 128 ∧
    ¬ 121 + pcount 121 ≤ 128 := by decide

/-- The longest data the least N_MAX takes (40 R95), a word that spells no other power of two, and a parity index. -/
theorem witness_EncodeCompletes : 100 ≤ kMaxFor Config.nMax ∧
    (holding 0x00640002#32 0xD).phase = .busy ⟨0x00640002#32, 0xD⟩ ∧ 2 < 100 + 7 ∧ isDataSlot 2 = true :=
  ⟨kMax_at_least_100, rfl, by decide, by decide⟩

/-- The ends of ranges of 43 R130. -/
theorem witness_RdecIsTheLeastCount : 1 ≤ 1 ∧ rdec 127 = 7 ∧ rdec 128 = 8 := by decide

theorem witness_SyndromeIsXorOfPositions : 6 < [false, true, true, false, false, true, true].length := by decide

theorem witness_SyndromeBitsAreTheChecks : 2 < rdec [true, false, true, false, true].length := by decide

/-- An index that is flipped and one that is not. -/
theorem witness_CorrectorFlipsAtMostTheLocatedBit : 4 < 7 ∧ 3 < 7 ∧
    syndrome [false, true, true, false, true, true, true] = 5 := by decide

theorem witness_ExtractorCollectsTheDataSlots : 4 < [true, false, true, false, true].length ∧ isDataSlot 4 = true := by decide

/-- The three outcomes, the empty codeword among them (V-DE09, V-DE06, V-DE15), and a data slot. -/
theorem witness_DecodeCompletes : 107 ≤ Config.nMax ∧ 0 ≤ Config.nMax ∧
    (holding 0x006B0003#32 0x76).phase = .busy ⟨0x006B0003#32, 0x76⟩ ∧ xorOfPositions (operand 0 0) = 0 ∧
    xorOfPositions (operand 0x76 7) = 5 ∧ xorOfPositions (operand 3 2) = 3 ∧ 2 < 7 ∧ isDataSlot 2 = true :=
  ⟨len_small _ (by decide), Nat.zero_le _, rfl, by decide, by decide, by decide, by decide, by decide⟩

theorem witness_AnySingleErrorIsCorrected : 6 < (enc [true, false, true, true]).length := by decide

/-- The three cases of 43 R144: flips at 1-based 1, 2, 3; at 3, 5 with n = 7; at 2, 5 with n = 5. -/
theorem witness_SeveralErrorsGiveTheLiteralResult :
    (2 ≤ [0, 1, 2].length ∧ [0, 1, 2].Nodup ∧ (∀ i ∈ [0, 1, 2], i < (enc [true, false, true, true]).length) ∧
      [0, 1, 2].foldl (fun acc i => acc ^^^ (i + 1)) 0 = 0 ∧ ∃ i ∈ [0, 1, 2], isDataSlot i = true) ∧
    ([2, 4].Nodup ∧ (∀ i ∈ [2, 4], i < (enc [true, false, true, true]).length) ∧
      [2, 4].foldl (fun acc i => acc ^^^ (i + 1)) 0 = 6) ∧
    ([1, 4].Nodup ∧ (∀ i ∈ [1, 4], i < (enc [true, false]).length) ∧
      [1, 4].foldl (fun acc i => acc ^^^ (i + 1)) 0 = 7 ∧ (enc [true, false]).length = 5) := by decide

/-- V-DE15, and n = 7. -/
theorem witness_UncorrectableNeedsAShortenedLength : (dec [true, true]).2.2 = .uncorrectable ∧
    [true, false, false, false, false, false, true].length = 2 ^ 3 - 1 := by decide

theorem witness_ZeroSyndromeWordsAreTheCodewords :
    (let c := enc [true, false, true, true]; c.length = (extract c).length + pcount (extract c).length ∧ syndrome c = 0) ∧
    2 < (enc [true, false, true, true]).length ∧ 4 < (enc [true, false, true, true]).length ∧
    (2 + 1) ^^^ (4 + 1) ≤ (enc [true, false, true, true]).length := by decide

/-- Both cases of the flips: none (0x66), and storage index 4 (0x76). -/
theorem witness_MachineRoundTripCorrectsOneError : 4 ≤ kMaxFor Config.nMax ∧
    (holding 0x00040002#32 0xD).phase = .busy ⟨0x00040002#32, 0xD⟩ ∧
    (holding 0x00070003#32 0x76).phase = .busy ⟨0x00070003#32, 0x76⟩ ∧
    (encodeResponse 128 4 0xD).out ^^^ 0 = 0x66 ∧ (encodeResponse 128 4 0xD).out ^^^ 2 ^ 4 = 0x76 ∧
    4 < (outLenField (encodeResponse 128 4 0xD)).toNat :=
  ⟨Nat.le_trans (by decide) kMax_at_least_100, rfl, rfl, by decide, by decide, by decide⟩

/-- A state with the block to move; its word is BAD_COMMAND and over every bound at once. -/
theorem witness_StatusIsTheFirstCause : (holding 0xFFFFFFFF#32 0).phase = .busy ⟨0xFFFFFFFF#32, 0⟩ ∧
    BlockNext (holding 0xFFFFFFFF#32 0) := ⟨rfl, Or.inl rfl⟩

theorem reset_inv : StateInv State.reset where
  held := trivial
  port := fun _ h => by cases h
  script := fun _ h => by cases h
  responses := fun _ h => by cases h
  last := fun _ h => by cases h

/-- A held command whose vector has N_MAX bits, and a step of it. -/
theorem witness_EveryStepKeepsTheInvariant :
    ∃ s t : State, StateInv s ∧ step s = .next t ∧ t.phase = .busy ⟨0x00070003#32, 0x76⟩ := by
  have hfit : vecFits 0x76 :=
    Nat.lt_of_lt_of_le (show 0x76 < 2 ^ 107 by decide) (Nat.pow_le_pow_right (by decide) Config.nMax_bounds.1)
  refine ⟨{ State.reset with cmdPort := some ⟨0x00070003#32, 0x76⟩ }, _, ?_, rfl, rfl⟩
  refine { reset_inv with port := fun c h => ?_ }
  cases h
  exact hfit

theorem witness_StepRunsTheDecodedCommand : (holding 0x00070101#32 0x66).phase = .busy ⟨0x00070101#32, 0x66⟩ ∧
    BlockNext (holding 0x00070101#32 0x66) ∧ decode 0x00070101#32 = .instr (.peval 1 7) := ⟨rfl, Or.inl rfl, by decide⟩

theorem witness_PlacedWordRunsNext : decodeTableWord 32 0x00070101 = some (.peval 1 7) := by decide

/-- Before acceptance a second offer replaces the first; after it an offer and a withdrawal pass. -/
theorem witness_OperandsAreCapturedAtAcceptance :
    (∃ (s : State) (ms rest : List Move) (c : Command), s.phase = .ready ∧ (∀ m ∈ ms, m.isQuiet = true) ∧
      s.moves = ms ++ .block :: rest ∧ portAfter s.cmdPort ms = some c) ∧
    ∃ (s : State) (ms rest : List Move) (held : Command), s.phase = .busy held ∧ (∀ m ∈ ms, m.isQuiet = true) ∧
      s.moves = ms ++ .block :: rest :=
  ⟨⟨{ State.reset with moves := [.present ⟨0#32, 0⟩, .blockIdle, .present ⟨2#32, 0⟩, .block] },
      [.present ⟨0#32, 0⟩, .blockIdle, .present ⟨2#32, 0⟩], [], ⟨2#32, 0⟩, by decide⟩,
    ⟨{ holding 2#32 0 with moves := [.present ⟨0#32, 0⟩, .withdraw, .block] },
      [.present ⟨0#32, 0⟩, .withdraw], [], ⟨2#32, 0⟩, by decide⟩⟩

/-- The clauses of `BusyAcceptsNoCommand`: an offer while BUSY, an answer, a reset. -/
theorem witness_BusyAcceptsNoCommand :
    (∃ t, step { holding 2#32 0 with moves := [.present ⟨3#32, 0⟩] } = .next t ∧ t.phase = .busy ⟨2#32, 0⟩) ∧
    (∃ t, step (holding 2#32 0) = .next t ∧ t.phase = .ready) ∧
    ∃ t, step { holding 2#32 0 with moves := [.reset] } = .next t ∧ t.respPort = none :=
  ⟨⟨_, rfl, rfl⟩, ⟨_, rfl, rfl⟩, ⟨_, rfl, rfl⟩⟩

/-- A reset while BUSY, and a response that was delivered (V-PC01). -/
theorem witness_ResetDiscardsTheCommandInFlight :
    ({ holding 2#32 0 with moves := [.reset] } : State).moves = .reset :: [] ∧
    (deliver ⟨0x00000040#32, 0#32, 0⟩ State.reset).respPort = some ⟨0x00000040#32, 0#32, 0⟩ := ⟨rfl, rfl⟩

/-- A READY block with nothing presented: the schedule used up, and a move of the block to come. -/
theorem witness_NoStepEverStops : State.reset.phase = .ready ∧ State.reset.cmdPort = none ∧ BlockNext State.reset ∧
    BlockNext { State.reset with moves := [.block] } := ⟨rfl, rfl, Or.inl rfl, Or.inr rfl⟩

theorem witness_EveryAcceptedCommandIsAnswered :
    ∃ s : State, s.phase = .busy ⟨2#32, 0⟩ ∧ s.moves = [.blockIdle, .present ⟨3#32, 0⟩] ∧ .reset ∉ s.moves :=
  ⟨{ holding 2#32 0 with moves := [.blockIdle, .present ⟨3#32, 0⟩] }, by decide⟩

/-- ENCODE with LEN = 4: vectors that differ above bit 3 only, in states that differ in everything else. -/
theorem witness_ResponseDependsOnTheOperandsAlone :
    ∃ (s1 s2 : State) (c1 c2 : Command), s1 ≠ s2 ∧ s1.phase = .busy c1 ∧ s2.phase = .busy c2 ∧ BlockNext s1 ∧ BlockNext s2 ∧
      c1.cmd = c2.cmd ∧
      ∀ i, i < (if c1.cmd.toNat % 4 = 0 then 0 else c1.cmd.toNat / 65536) → c1.inp.testBit i = c2.inp.testBit i :=
  ⟨holding 0x00040002#32 0xD, { holding 0x00040002#32 0xFD with cmdPort := some ⟨3#32, 0⟩, moves := [.block] },
    ⟨0x00040002#32, 0xD⟩, ⟨0x00040002#32, 0xFD⟩, by decide, rfl, rfl, Or.inl rfl, Or.inr rfl, rfl, by decide⟩

theorem witness_CommandSequenceIsAnsweredInOrder :
    ∃ (cs : List (Command × Nat)) (s : State), cs.length = 2 ∧ s.phase = .ready ∧ s.moves = commandSchedule cs :=
  ⟨[(⟨0x00040002#32, 0xD⟩, 0), (⟨0x00070003#32, 0x66⟩, 3)],
    { State.reset with moves := commandSchedule [(⟨0x00040002#32, 0xD⟩, 0), (⟨0x00070003#32, 0x66⟩, 3)] }, rfl, rfl, rfl⟩

theorem witness_NothingRunsWithoutACapturedCommand : State.reset.phase = .ready := rfl

end Sys2Proof.Tests
end

section
/-! Slots and covering sets (00 R12, R13; 41 R105). -/

namespace Sys2Proof.Machine

/-- The test for a power of two, written for a storage index (00 R12). -/
theorem and_succ_eq_zero_iff (i : Nat) : i &&& (i + 1) = 0 ↔ ∃ q, i + 1 = 2 ^ q := by
  rw [Nat.and_comm]
  exact Nat.and_sub_one_eq_zero_iff_isPowerOfTwo (Nat.succ_ne_zero i)

theorem isDataSlot_eq_false_iff (i : Nat) : isDataSlot i = false ↔ ∃ p, i = slot p :=
  ⟨exists_slot_of_not_dataSlot i, fun ⟨p, hp⟩ => hp ▸ isDataSlot_slot p⟩

/-- Settles O13: both mask tests are Mathlib's test for a power of two, and an index that is no data slot is a slot. -/
theorem dataSlotsAreTheNonPowers : Obligations.DataSlotsAreTheNonPowers :=
  ⟨fun _ hm => Nat.and_sub_one_eq_zero_iff_isPowerOfTwo (Nat.ne_of_gt hm), slot_succ, and_succ_eq_zero_iff,
    fun _ => decide_eq_true_iff, fun _ i _ => isDataSlot_eq_false_iff i⟩

@[simp] theorem mem_cover (p n i : Nat) : i ∈ cover p n ↔ i < n ∧ covers p i = true := by
  simp [cover]

theorem covers_iff_div_mod (p i : Nat) : covers p i = true ↔ (i + 1) / 2 ^ p % 2 = 1 := by
  rw [covers, Nat.testBit_eq_decide_div_mod_eq, decide_eq_true_iff]

/-- A parity slot lies in the covering set of its own index and in no other (00 R13). -/
theorem slot_mem_cover_iff (p q n : Nat) : slot q ∈ cover p n ↔ slot q < n ∧ q = p := by
  simp [covers_slot]

/-- The indices of the covering sets an index lies in are the places of the 1 bits of its 1-based index (41 R105). -/
theorem filter_mem_cover_eq_bitIndices (i n : Nat) (hi : i < n) :
    (Finset.range (i + 1)).filter (fun p => i ∈ cover p n) = (i + 1).bitIndices.toFinset := by
  ext p
  have hp : (i + 1).testBit p = true → p < i + 1 := fun h =>
    Nat.lt_of_lt_of_le Nat.lt_two_pow_self (Nat.ge_two_pow_of_testBit h)
  simpa [hi, covers] using hp

/-- The covering sets an index lies in spell its 1-based index in binary (41 R105). -/
theorem sum_two_pow_of_mem_cover (i n : Nat) (hi : i < n) :
    ∑ p ∈ (Finset.range (i + 1)).filter (fun p => i ∈ cover p n), 2 ^ p = i + 1 := by
  rw [filter_mem_cover_eq_bitIndices i n hi, Finset.sum_toFinset_bitIndices_two_pow]

theorem filter_lt_range_of_le {n m : Nat} (h : n ≤ m) :
    (List.range m).filter (fun i => decide (i < n)) = List.range n := by
  obtain ⟨k, rfl⟩ := Nat.exists_eq_add_of_le h
  have hlow : (List.range n).filter (fun i => decide (i < n)) = List.range n := by
    simp [List.filter_eq_self]
  have hhigh : ((List.range k).map (n + ·)).filter (fun i => decide (i < n)) = [] := by
    simp [List.filter_eq_nil_iff]
  rw [List.range_add, List.filter_append, hlow, hhigh, List.append_nil]

/-- A shorter length keeps the members below it (41 R105). -/
theorem cover_eq_filter_cover (p n m : Nat) (h : n ≤ m) :
    cover p n = (cover p m).filter (fun i => decide (i < n)) := by
  rw [cover, cover, List.filter_comm, filter_lt_range_of_le h]

/-- Settles O14, from membership as a bit of the 1-based index. -/
theorem coveringSetsAreOneBased : Obligations.CoveringSetsAreOneBased := by
  refine ⟨fun p n i => ?_, fun p n h => ?_, fun p q n hpq h => ?_, sum_two_pow_of_mem_cover, by decide, by decide,
    by decide, by decide, by decide, fun p n => cover_eq_filter_cover p n 15⟩
  · rw [mem_cover, covers_iff_div_mod]
  · exact (slot_mem_cover_iff p p n).mpr ⟨h, rfl⟩
  · obtain ⟨-, hqp⟩ := (slot_mem_cover_iff p q n).mp h
    exact hpq hqp.symm

end Sys2Proof.Machine
end

section
/-! K_MAX and the lengths ENCODE refuses (00 R7, 42 R114). -/

namespace Sys2Proof.Machine

/-- PCOUNT is non-decreasing (40 R93). -/
theorem pcount_mono {k l : Nat} (h : k ≤ l) : pcount k ≤ pcount l := by
  by_contra hlt
  have hk : 2 ^ pcount l < k + pcount l + 1 := lt_of_lt_pcount k (pcount l) (pcount_pos l) (Nat.not_le.mp hlt)
  have hl : l + pcount l + 1 ≤ 2 ^ pcount l := pcount_pow l
  omega

/-- The count of a 16-bit length fits the field R (40 R91). -/
theorem pcount_le_17 (k : Nat) (h : k < 65536) : pcount k ≤ 17 := by
  by_contra hlt
  have h17 : 2 ^ 17 < k + 17 + 1 := lt_of_lt_pcount k 17 (by decide) (Nat.not_le.mp hlt)
  omega

/-- K_MAX is the greatest admitted data length (00 R7). -/
theorem kMaxFor_isGreatest (m : Nat) (hm : 1 ≤ m) : IsGreatest {k | k + pcount k ≤ m} (kMaxFor m) := by
  obtain ⟨-, hfit, hmax⟩ := kMaxUpTo_spec m m hm
  exact ⟨hfit, fun k hk => hmax k (Nat.le_trans (Nat.le_add_right k _) hk) hk⟩

/-- The encoder's own length test agrees with K_MAX, since PCOUNT is non-decreasing (42 R114, log entry 9). -/
theorem lt_add_pcount_iff_kMaxFor_lt (m k : Nat) (hm : 1 ≤ m) : m < k + pcount k ↔ kMaxFor m < k := by
  obtain ⟨hfit, hmax⟩ := kMaxFor_isGreatest m hm
  constructor
  · intro h
    by_contra hle
    have hmono : pcount k ≤ pcount (kMaxFor m) := pcount_mono (Nat.not_lt.mp hle)
    have hfit' : kMaxFor m + pcount (kMaxFor m) ≤ m := hfit
    omega
  · intro h
    by_contra hle
    exact Nat.not_le.mpr h (hmax (Nat.not_lt.mp hle))

/-- A response with status OK is no error response of another status (30 R66). -/
theorem respond_ne_errorResponse (f : ResultFields) (st : Status) (hr : f.r < 32) (hl : f.outLen < 65536)
    (hst : statusCode f.status ≠ statusCode st) : respond f ≠ errorResponse st := by
  intro h
  have hf : statusField (respond f) = statusCode f.status := (respond_fields f hr hl).1
  rw [h, (errorResponse_fields st).1] at hf
  exact hst hf.symm

/-- ENCODE answers BAD_LENGTH exactly when its length test fails (42 R114). -/
theorem encodeResponse_eq_badLength_iff (m k inp : Nat) (hm : m ≤ 65535) (hk : k < 65536) :
    encodeResponse m k inp = errorResponse .badLength ↔ m < k + pcount k := by
  unfold encodeResponse
  split
  · next h => exact iff_of_true rfl h
  · next h =>
    have hr : pcount k < 32 := Nat.lt_of_le_of_lt (pcount_le_17 k hk) (by decide)
    refine iff_of_false (respond_ne_errorResponse _ _ hr ?_ (show statusCode .ok ≠ statusCode .badLength by decide)) h
    exact Nat.lt_of_le_of_lt (Nat.not_lt.mp h) (Nat.lt_succ_of_le hm)

/-- Settles O25, from the encoder's length test and its agreement with K_MAX. -/
theorem kMaxIsTheGreatestDataLength : Obligations.KMaxIsTheGreatestDataLength := by
  refine ⟨fun m hlo hhi => ?_, by decide, by decide, by decide⟩
  have hm : 1 ≤ m := Nat.le_trans (by decide) hlo
  refine ⟨kMaxFor_isGreatest m hm, fun k inp hk => ?_⟩
  rw [encodeResponse_eq_badLength_iff m k inp hhi hk, lt_add_pcount_iff_kMaxFor_lt m k hm]

end Sys2Proof.Machine
end

section
/-! The response lengths and bounds: what makes every response well formed (30 R66..R71, 60 R163). -/

namespace Sys2Proof.Machine

@[simp] theorem length_enc (d : BitSeq) : (enc d).length = d.length + pcount d.length := by
  obtain ⟨-, -, hplace, -⟩ := placeWalk_spec d _ (Nat.le_refl _)
  obtain ⟨-, -, -, hfill, -⟩ := fillWalk_spec (placeData d (encodeSizes d)) (List.range (placeData d (encodeSizes d)).r)
  exact hfill.trans hplace

@[simp] theorem length_extract (w : BitSeq) : (extract w).length = w.length - rdec w.length := by
  have h : dataSlotsBelow w.length + rdec w.length = w.length := dataSlotsBelow_add_rdec w.length
  rw [extract_eq, List.length_map, length_filter_isDataSlot]
  omega

@[simp] theorem length_decodeWork_w (c : BitSeq) : (decodeWork c).w.length = c.length := by
  obtain ⟨-, -, hw⟩ := decodeWork_eq c
  rw [hw]
  split <;> simp

/-- The decoder's count of a 16-bit length (43 R130). -/
theorem rdec_le_16 (n : Nat) (h : n < 65536) : rdec n ≤ 16 := by
  by_contra hlt
  have h16 : 2 ^ 16 < n + 1 := lt_of_lt_rdec n 16 (Nat.not_le.mp hlt)
  omega

/-- The syndrome has RDEC(n) bits (43 R131). -/
theorem syndrome_lt_two_pow_rdec (c : BitSeq) : syndrome c < 2 ^ rdec c.length := by
  obtain ⟨-, -, -, hs, -⟩ := syndromeWalk_spec c (rdec c.length)
  exact hs

theorem outcomeOf_eq_clean_iff (s n : Nat) : outcomeOf s n = .clean ↔ s = 0 := by
  unfold outcomeOf
  split_ifs <;> simp_all

theorem outcomeOf_eq_error_iff (s n : Nat) :
    outcomeOf s n = .corrected ∨ outcomeOf s n = .uncorrectable ↔ s ≠ 0 := by
  unfold outcomeOf
  split_ifs <;> simp_all

theorem outcomeCode_eq_clean_iff (oc : DecodeOutcome) : outcomeCode oc = 0b01#2 ↔ oc = .clean := by
  cases oc <;> decide

theorem outcomeCode_eq_error_iff (oc : DecodeOutcome) :
    outcomeCode oc = 0b10#2 ∨ outcomeCode oc = 0b11#2 ↔ oc = .corrected ∨ oc = .uncorrectable := by
  cases oc <;> decide

/-- An error response is well formed (60 R163). -/
theorem responseWf_errorResponse (st : Status) : ResponseWf (errorResponse st) := by
  obtain ⟨hst, hclean, hoc, -, hr, hrsv, hlen⟩ := errorResponse_fields st
  constructor
  case reserved => exact hrsv
  case res1High => rw [errorResponse_res1]; decide
  case rBound => simp [hr]
  case outBound => simp
  case outLenBound => simp [hlen]
  case cleanIff => simp [hclean, hoc]
  case syndromeIff => simp [hoc]
  case errorZero => simp [hst]

/-- A response with status OK is well formed when its fields keep their bounds and agree with each other (30 R66..R71). -/
theorem responseWf_respond (f : ResultFields) (hst : f.status = .ok) (hr : f.r ≤ 17) (hlen : f.outLen ≤ Config.nMax)
    (hout : f.out.length ≤ f.outLen) (hsyn : f.syndrome < 65536) (hclean : f.clean = true ↔ f.outcome = .clean)
    (herr : f.syndrome ≠ 0 ↔ f.outcome = .corrected ∨ f.outcome = .uncorrectable) : ResponseWf (respond f) := by
  obtain ⟨-, hmax⟩ := Config.nMax_bounds
  obtain ⟨gst, gclean, goc, -, gr, grsv, glen⟩ := respond_fields f (by omega) (by omega)
  have hres1 : (BitVec.ofNat 32 f.syndrome).toNat = f.syndrome := by
    rw [BitVec.toNat_ofNat]
    omega
  constructor
  case reserved => exact grsv
  case res1High =>
    apply BitVec.eq_of_toNat_eq
    rw [extractField_toNat, respond_res1, hres1, BitVec.toNat_ofNat]
    omega
  case rBound => rw [gr]; exact hr
  case outBound =>
    rw [glen]
    exact Nat.lt_of_lt_of_le (seqValue_lt f.out) (Nat.pow_le_pow_right (by decide) hout)
  case outLenBound => rw [glen]; exact hlen
  case cleanIff =>
    rw [gclean, goc, outcomeCode_eq_clean_iff, ← hclean]
    cases f.clean <;> decide
  case syndromeIff =>
    rw [goc, outcomeCode_eq_error_iff, ← herr, respond_res1, ne_eq, ← BitVec.toNat_inj, hres1]
    rfl
  case errorZero =>
    intro h
    rw [gst, hst] at h
    exact absurd rfl h

/-- Every command answers with a well-formed response, whatever its operand vector. -/
theorem responseWf_instrResponse (i : Instr) (inp : Nat) (hi : i.wf = true) :
    ResponseWf (instrResponse Config.nMax i inp) := by
  obtain ⟨-, hmax⟩ := Config.nMax_bounds
  cases i with
  | pcount k =>
    simp only [instrResponse, pcountResponse]
    exact responseWf_respond _ rfl (pcount_le_17 k (of_decide_eq_true hi)) (by simp) (by simp) (by simp) (by simp)
      (by simp)
  | peval p n =>
    simp only [instrResponse, pevalResponse]
    split_ifs with hn hp
    · exact responseWf_errorResponse _
    · exact responseWf_errorResponse _
    · have hr : rdec n ≤ 16 := rdec_le_16 n (by omega)
      exact responseWf_respond _ rfl (Nat.le_succ_of_le hr) (by simp) (by simp) (by simp) (by simp) (by simp)
  | encode k =>
    simp only [instrResponse, encodeResponse]
    split_ifs with hk
    · exact responseWf_errorResponse _
    · exact responseWf_respond _ rfl (pcount_le_17 k (of_decide_eq_true hi)) (Nat.not_lt.mp hk) (by simp) (by simp)
        (by simp) (by simp)
  | decode n =>
    by_cases hn : n ≤ Config.nMax
    · have hr : rdec n ≤ 16 := rdec_le_16 n (by omega)
      have hs : syndrome (operand inp n) < 2 ^ 16 :=
        Nat.lt_of_lt_of_le (syndrome_lt_two_pow_rdec _) (Nat.pow_le_pow_right (by decide) (by simpa using hr))
      rw [instrResponse, decodeResponse_of_le _ _ _ hn]
      exact responseWf_respond _ rfl (Nat.le_succ_of_le hr) (Nat.le_trans (Nat.sub_le n _) hn) (by simp) hs
        (by simp [outcomeOf_eq_clean_iff]) (by simp [outcomeOf_eq_error_iff])
    · rw [instrResponse, decodeResponse, if_pos (Nat.not_le.mp hn)]
      exact responseWf_errorResponse _

/-- OUT is 0 at and above OUT_LEN (20 R44). -/
theorem ResponseWf.out_testBit {r : Response} (h : ResponseWf r) (i : Nat) (hi : (outLenField r).toNat ≤ i) :
    r.out.testBit i = false :=
  Nat.testBit_lt_two_pow (Nat.lt_of_lt_of_le h.outBound (Nat.pow_le_pow_right (by decide) hi))

/-- An error status comes with OUT_LEN = 0 (60 R163). -/
theorem ResponseWf.outLenField_of_error {r : Response} (h : ResponseWf r) (hst : statusField r ≠ 0#2) :
    outLenField r = 0#16 := by
  obtain ⟨hres0, -, -⟩ := h.errorZero hst
  have hzext : ∀ st : BitVec 2, (st.setWidth 32).extractLsb' 16 16 = 0#16 := by decide
  rw [outLenField, hres0]
  exact hzext _

end Sys2Proof.Machine
end

section
/-! What a response depends on (10 R22, 20 R44): the command word and the IN bits below the operand length. -/

namespace Sys2Proof.Machine

/-- The number of IN bits a command reads: LEN, and 0 for PCOUNT (20 R44, 40 R91). -/
def operandLength : Instr → Nat
  | .pcount _ => 0
  | .peval _ n => n
  | .encode k => k
  | .decode n => n

/-- The fields a decoded command comes from (30 R72): its length has 16 bits and its index 8, and its operand length is LEN
unless OP is PCOUNT. -/
theorem wf_and_operandLength_of_decode {cmd : Word} {i : Instr} (h : decode cmd = .instr i) :
    i.wf = true ∧ operandLength i = if cmd.toNat % 4 = 0 then 0 else cmd.toNat / 65536 := by
  have hlen : cmd.toNat / 65536 < 65536 := by have := cmd.isLt; omega
  have hpidx : cmd.toNat / 256 % 256 < 256 := Nat.mod_lt _ (by decide)
  rw [decode_eq_of_toNat] at h
  split_ifs at h with _ _ hop0 hop1 hop2 <;> cases h
  · simp [Instr.wf, operandLength, hop0, hlen]
  · simp [Instr.wf, operandLength, hop1, hlen, hpidx]
  · simp [Instr.wf, operandLength, hop2, hlen]
  · simp [Instr.wf, operandLength, hop0, hlen]

/-- A command reads no IN bit at or above its operand length (20 R44). -/
theorem instrResponse_congr (nMax : Nat) (i : Instr) (v w : Nat)
    (h : ∀ j, j < operandLength i → v.testBit j = w.testBit j) : instrResponse nMax i v = instrResponse nMax i w := by
  have hop : operand v (operandLength i) = operand w (operandLength i) := operand_congr v w _ h
  cases i with
  | pcount k => rfl
  | peval p n => simp only [instrResponse, pevalResponse, show operand v n = operand w n from hop]
  | encode k => simp only [instrResponse, encodeResponse, show operand v k = operand w k from hop]
  | decode n => simp only [instrResponse, decodeResponse, show operand v n = operand w n from hop]

theorem responseTo_of_decode {c : Command} {i : Instr} (h : decode c.cmd = .instr i) :
    responseTo c = instrResponse Config.nMax i c.inp := by
  simp [responseTo, h]

theorem responseTo_of_badCommand {c : Command} {why : BadCommand} (h : decode c.cmd = .badCommand why) :
    responseTo c = errorResponse .badCommand := by
  simp [responseTo, h]

theorem responseWf_responseTo (c : Command) : ResponseWf (responseTo c) := by
  cases h : decode c.cmd with
  | instr i =>
    rw [responseTo_of_decode h]
    exact responseWf_instrResponse i c.inp (wf_and_operandLength_of_decode h).1
  | badCommand why =>
    rw [responseTo_of_badCommand h]
    exact responseWf_errorResponse _

/-- Equal words and equal IN bits below the operand length have one response (10 R22). -/
theorem responseTo_congr (c1 c2 : Command) (hcmd : c1.cmd = c2.cmd)
    (hinp : ∀ i, i < (if c1.cmd.toNat % 4 = 0 then 0 else c1.cmd.toNat / 65536) →
      c1.inp.testBit i = c2.inp.testBit i) : responseTo c1 = responseTo c2 := by
  cases h : decode c1.cmd with
  | instr i =>
    rw [responseTo_of_decode h, responseTo_of_decode (hcmd ▸ h)]
    refine instrResponse_congr Config.nMax i c1.inp c2.inp fun j hj => hinp j ?_
    rwa [← (wf_and_operandLength_of_decode h).2]
  | badCommand why => rw [responseTo_of_badCommand h, responseTo_of_badCommand (hcmd ▸ h)]

/-- Settles O51: both steps deliver the response to the held command, which depends on the word and the operand bits
alone and is well formed. -/
theorem responseDependsOnTheOperandsAlone : Obligations.ResponseDependsOnTheOperandsAlone := by
  intro s1 s2 c1 c2 hp1 hp2 hn1 hn2 hcmd hinp
  have hr : responseTo c1 = responseTo c2 := responseTo_congr c1 c2 hcmd hinp
  have hwf : ResponseWf (responseTo c1) := responseWf_responseTo c1
  exact ⟨_, _, responseTo c1, step_busy s1 c1 hp1 hn1, step_busy s2 c2 hp2 hn2, rfl, congrArg some hr.symm,
    hwf.out_testBit, hwf.outLenField_of_error⟩

end Sys2Proof.Machine
end

section
/-! The interface of the block (10 R23, R30): acceptance, performance of a held command, and reset. -/

namespace Sys2Proof.Machine

/-- When the block moves next, a step is the block's move with the entry of the schedule used up (70 R199). -/
theorem step_of_blockNext (s : State) (hn : BlockNext s) :
    step s = planOutcome (planBlock { s with moves := s.moves.tail }) := by
  rw [step_eq]
  cases hm : s.moves with
  | nil =>
    have hs : s = { s with moves := [] } := by rw [← hm]
    rw [planStep, hm, List.tail_nil, ← hs]
  | cons m rest =>
    obtain rfl : m = .block := by simpa [BlockNext, hm] using hn
    rw [planStep, hm, List.tail_cons]

/-- The block's move in READY accepts the command on the port (10 R23, 20 R46). -/
theorem step_ready_of_offer (s : State) (c : Command) (hp : s.phase = .ready) (hc : s.cmdPort = some c)
    (hn : BlockNext s) : step s = .next (accept c { s with moves := s.moves.tail }) := by
  rw [step_of_blockNext s hn]
  simp [planBlock, planOutcome, hp, hc]

/-- A run over quiet moves and the move of the block after them is that one step, from the port and the schedule the quiet
moves leave. -/
theorem runSteps_quiet_block (ms rest : List Move) (s : State) (hq : ∀ m ∈ ms, m.isQuiet = true)
    (hm : s.moves = ms ++ .block :: rest) :
    runSteps (ms.length + 1) s = step { s with moves := .block :: rest, cmdPort := portAfter s.cmdPort ms } := by
  rw [runSteps_quiet ms (.block :: rest) s 1 hq hm]
  obtain ⟨t, ht, -⟩ := step_cases { s with moves := .block :: rest, cmdPort := portAfter s.cmdPort ms }
  rw [runSteps_succ 0 _ t ht, ht, runSteps]

/-- Settles O47: the quiet moves change the port and the schedule alone, and the block's move after them accepts what the
port shows in READY and answers the held command in BUSY. -/
theorem operandsAreCapturedAtAcceptance : Obligations.OperandsAreCapturedAtAcceptance := by
  constructor
  · intro s ms rest c hp hq hm hport
    rw [runSteps_quiet_block ms rest s hq hm,
      step_ready_of_offer { s with moves := .block :: rest, cmdPort := portAfter s.cmdPort ms } c hp hport (.inr rfl)]
    exact ⟨_, rfl, rfl, rfl, rfl, rfl, rfl⟩
  · intro s ms rest held hp hq hm
    rw [runSteps_quiet_block ms rest s hq hm,
      step_busy { s with moves := .block :: rest, cmdPort := portAfter s.cmdPort ms } held hp (.inr rfl)]
    exact ⟨_, rfl, rfl, rfl, rfl, rfl, rfl, rfl⟩

/-- Settles O41: each field of the state after reset is the value written there, and no response is on the port. -/
theorem resetLeavesReadyAndNoResponse : Obligations.ResetLeavesReadyAndNoResponse :=
  ⟨rfl, rfl, rfl, rfl, rfl, rfl⟩

/-- Settles O42: after reset nothing is held, presented, scheduled, observed or shown, so every clause is empty. -/
theorem invariantHoldsAtReset : Obligations.InvariantHoldsAtReset where
  held := trivial
  port := fun _ h => nomatch h
  script := fun _ h => nomatch h
  responses := fun _ h => nomatch h
  last := fun _ h => nomatch h

/-- Settles O45: the step and `exec` both deliver the response to the held command. -/
theorem stepRunsTheDecodedCommand : Obligations.StepRunsTheDecodedCommand := by
  intro s held i hp hn hi
  rw [step_busy s held hp hn, exec_busy i { s with moves := s.moves.tail } held hp, responseTo_of_decode hi]

/-- Performing a command is completing with its response (10 R23). -/
theorem exec_eq_complete (i : Instr) (s : State) : exec i s = complete s (instrResponse Config.nMax i) := by
  cases i <;> rfl

/-- With no command held there is nothing to answer (log entry 6). -/
theorem complete_ready (s : State) (answer : Nat → Response) (h : s.phase = .ready) :
    complete s answer = .fault .noCommandHeld := by
  simp [complete, h]

/-- Settles O53: every command ends in `complete`, which faults on a READY state. -/
theorem nothingRunsWithoutACapturedCommand : Obligations.NothingRunsWithoutACapturedCommand :=
  fun i s hp => (exec_eq_complete i s).trans (complete_ready s _ hp)

end Sys2Proof.Machine
end

section
/-! The invariant (20 R40, 30 R66..R71, 60 R163): each operation on the state keeps it, so the block's move and every step
do. -/

namespace Sys2Proof.Machine

/-- Acceptance keeps the invariant: the captured vector is the presented one, and the port offers nothing more. -/
theorem StateInv.accept {s : State} {c : Command} (h : StateInv s) (hc : s.cmdPort = some c) :
    StateInv (accept c s) :=
  { h with held := h.port c hc, port := fun _ hnone => nomatch hnone }

/-- Delivery of a well-formed response keeps the invariant: it is the last of the record and the one on the port. -/
theorem StateInv.deliver {s : State} {r : Response} (h : StateInv s) (hr : ResponseWf r) :
    StateInv (deliver r s) where
  held := trivial
  port := h.port
  script := h.script
  responses := fun q hq => (List.mem_append.mp hq).elim (h.responses q) fun hlast => List.mem_singleton.mp hlast ▸ hr
  last := fun q hq => by simpa using hq

/-- A reset keeps the invariant: nothing is held, and the response port shows nothing. -/
theorem StateInv.resetBlock {s : State} (h : StateInv s) : StateInv (resetBlock s) :=
  { h with held := trivial, last := fun _ hnone => nomatch hnone }

/-- A shorter schedule keeps the invariant. -/
theorem StateInv.setMoves {s : State} {m : Move} {rest : List Move} (h : StateInv s) (hm : s.moves = m :: rest) :
    StateInv { s with moves := rest } :=
  { h with script := fun x hx => h.script x (hm ▸ List.mem_cons_of_mem m hx) }

/-- The next move of the schedule presents only an N_MAX-bit vector. -/
theorem StateInv.moveFits_head {s : State} {m : Move} {rest : List Move} (h : StateInv s) (hm : s.moves = m :: rest) :
    moveFits m :=
  h.script m (hm ▸ List.mem_cons_self)

/-- The block's move keeps the invariant: it answers with `responseTo`, which is well formed for every command. -/
theorem BlockMove.stateInv {s t : State} (hb : BlockMove s t) (h : StateInv s) : StateInv t := by
  cases hb with
  | idle _ _ ht => exact ht ▸ h
  | accepts c _ hc ht => exact ht ▸ h.accept hc
  | answers held _ ht => exact ht ▸ h.deliver (responseWf_responseTo held)

/-- Every move of a step keeps the invariant. -/
theorem StepMove.stateInv {s t : State} (hstep : StepMove s t) (h : StateInv s) : StateInv t := by
  cases hstep with
  | blockAlone _ hb => exact hb.stateInv h
  | blockScheduled rest hm hb => exact hb.stateInv (h.setMoves hm)
  | idle rest hm ht => exact ht ▸ h.setMoves hm
  | presents c rest hm ht =>
    have hc : vecFits c.inp := h.moveFits_head hm
    exact ht ▸ { h.setMoves hm with port := fun d hd => Option.some.inj hd ▸ hc }
  | withdraws rest hm ht => exact ht ▸ { h.setMoves hm with port := fun _ hnone => nomatch hnone }
  | resets rest hm ht => exact ht ▸ (h.setMoves hm).resetBlock

/-- Settles O43: a step is one of the moves of `StepMove`, and each of them keeps the invariant. -/
theorem everyStepKeepsTheInvariant : Obligations.EveryStepKeepsTheInvariant := by
  intro s t h hstep
  obtain ⟨u, hu, hmove⟩ := step_cases s
  obtain rfl : u = t := by simpa [hu] using hstep
  exact hmove.stateInv h

end Sys2Proof.Machine
end

section
/-! A sequence of commands (20 R50, 70 R200): one round per command, and the rounds one after another. -/

namespace Sys2Proof.Machine

/-- A run that reaches a state goes on from it. -/
theorem runSteps_add (m n : Nat) (s t : State) (h : runSteps m s = .next t) : runSteps (m + n) s = runSteps n t := by
  induction m generalizing s with
  | zero =>
    cases h
    rw [Nat.zero_add]
  | succ m ih =>
    obtain ⟨u, hu, -⟩ := step_cases s
    rw [runSteps_succ m s u hu] at h
    rw [Nat.succ_add, runSteps_succ (m + n) s u hu, ih u h]

/-- One round from READY: the command is presented, accepted, delayed and answered, and the block is READY again, with that
one response more on the record (10 R23, 20 R50). -/
theorem runSteps_commandRound (c : Command) (delay : Nat) (rest : List Move) (s : State) (hp : s.phase = .ready)
    (hm : s.moves = .present c :: .block :: (List.replicate delay .blockIdle ++ .block :: rest)) :
    ∃ t, runSteps (delay + 3) s = .next t ∧ t.phase = .ready ∧ t.moves = rest ∧
      t.observed = s.observed ++ [responseTo c] := by
  obtain ⟨capture, answer⟩ := operandsAreCapturedAtAcceptance
  obtain ⟨u, hu, hup, -, -, huo, hum⟩ :=
    capture s [.present c] (List.replicate delay Move.blockIdle ++ .block :: rest) c hp (by simp [Move.isQuiet]) hm rfl
  have hidle : ∀ m ∈ List.replicate delay Move.blockIdle, m.isQuiet = true :=
    fun m hmem => List.eq_of_mem_replicate hmem ▸ rfl
  obtain ⟨t, ht, htp, -, -, hto, -, htm⟩ := answer u _ rest c hup hidle hum
  rw [List.length_replicate] at ht
  refine ⟨t, ?_, htp, htm, huo ▸ hto⟩
  rw [show delay + 3 = 2 + (delay + 1) by omega]
  exact (runSteps_add 2 (delay + 1) s u hu).trans ht

theorem length_commandSchedule_cons (c : Command) (delay : Nat) (cs : List (Command × Nat)) :
    (commandSchedule ((c, delay) :: cs)).length = delay + 3 + (commandSchedule cs).length := by
  simp [commandSchedule]
  omega

/-- Settles O52, by induction on the commands: one round answers the first, and the rest run from the READY state it
leaves. -/
theorem commandSequenceIsAnsweredInOrder : Obligations.CommandSequenceIsAnsweredInOrder := by
  intro cs
  induction cs with
  | nil => exact fun s hp hm => ⟨s, rfl, hp, hm, by simp⟩
  | cons head cs ih =>
    obtain ⟨c, delay⟩ := head
    intro s hp hm
    obtain ⟨u, hu, hup, hum, huo⟩ := runSteps_commandRound c delay (commandSchedule cs) s hp hm
    obtain ⟨t, ht, htp, htm, hto⟩ := ih u hup hum
    refine ⟨t, ?_, htp, htm, by rw [hto, huo]; simp⟩
    rw [length_commandSchedule_cons, runSteps_add _ _ s u hu, ht]

end Sys2Proof.Machine
end

section
/-! The value of a vector (20 R43): the sum of its bits, and the byte convention of the hosts. -/

namespace Sys2Proof.Machine

/-- The value of a sequence is the sum of its bits times powers of two (20 R43). -/
theorem seqValue_eq_sum (c : BitSeq) :
    seqValue c = ((List.range c.length).map (fun i => (elem c i).toNat * 2 ^ i)).sum := by
  induction c with
  | nil => rfl
  | cons b c ih =>
    have hterm : ∀ i, (elem (b :: c) (i + 1)).toNat * 2 ^ (i + 1) = 2 * ((elem c i).toNat * 2 ^ i) := fun i => by
      rw [show elem (b :: c) (i + 1) = elem c i from rfl, Nat.pow_succ]
      ring
    rw [seqValue, ih, List.length_cons, List.range_succ_eq_map, List.map_cons, List.sum_cons, List.map_map,
      ← List.sum_map_mul_left]
    simp only [Function.comp_def, Nat.succ_eq_add_one, hterm]
    simp [elem]

/-- Reading the n bits of a value below 2^n gives back the value (20 R43). -/
theorem seqValue_operand {v n : Nat} (h : v < 2 ^ n) : seqValue (operand v n) = v := by
  apply Nat.eq_of_testBit_eq
  intro i
  rw [testBit_seqValue, elem_operand]
  by_cases hi : i < n
  · simp [hi]
  · have hpow : v < 2 ^ i := Nat.lt_of_lt_of_le h (Nat.pow_le_pow_right (by decide) (Nat.not_lt.mp hi))
    simp [hi, Nat.testBit_lt_two_pow hpow]

/-- Bit j of byte q of a vector is its bit 8 * q + j (20 R43). -/
theorem getLsbD_hostByte (v q j : Nat) (hj : j < 8) : (hostByte v q).getLsbD j = v.testBit (8 * q + j) := by
  rw [hostByte, BitVec.getLsbD_ofNat, Nat.testBit_div_two_pow, Nat.add_comm j]
  simp [hj]

/-- Settles O6, from the bits of a value and of a host's byte. -/
theorem vectorValueIsSumOfBits : Obligations.VectorValueIsSumOfBits := by
  refine ⟨seqValue_eq_sum, fun _ _ => seqValue_operand, by decide, fun v i => ?_⟩
  rw [getLsbD_hostByte v (i / 8) (i % 8) (Nat.mod_lt i (by decide)), Nat.div_add_mod]

end Sys2Proof.Machine
end

section
/-! Command words (30 R60, R72, R75): the number of a command's word, and the decoder as the inverse of the encoder. -/

namespace Sys2Proof

/-- The word of a command as a number: LEN from bit 16 on, PIDX from bit 8 on, OP below (30 R75). -/
def wordValue : Instr → Nat
  | .pcount k => k * 65536 + 0 * 256 + 0
  | .peval p n => n * 65536 + p * 256 + 1
  | .encode k => k * 65536 + 0 * 256 + 2
  | .decode n => n * 65536 + 0 * 256 + 3

/-- Operands within their fields are not cut (30 R60). -/
theorem cmdWord_toNat_of_lt {len pidx : Nat} (op : BitVec 2) (hlen : len < 65536) (hpidx : pidx < 256) :
    (cmdWord len pidx op).toNat = len * 65536 + pidx * 256 + op.toNat := by
  rw [Laws.RowMatch.cmdWord_toNat, Nat.mod_eq_of_lt hlen, Nat.mod_eq_of_lt hpidx, Nat.mul_comm 65536, Nat.mul_comm 256]

theorem toNat_encode {i : Instr} (hwf : i.wf = true) : (encode i).toNat = wordValue i := by
  cases i with
  | pcount k => exact cmdWord_toNat_of_lt 0b00#2 (of_decide_eq_true hwf) (by decide)
  | peval p n =>
    obtain ⟨hp, hn⟩ : p < 256 ∧ n < 65536 := by simpa [Instr.wf] using hwf
    exact cmdWord_toNat_of_lt 0b01#2 hn hp
  | encode k => exact cmdWord_toNat_of_lt 0b10#2 (of_decide_eq_true hwf) (by decide)
  | decode n => exact cmdWord_toNat_of_lt 0b11#2 (of_decide_eq_true hwf) (by decide)

/-- The fields of a number written as LEN, PIDX and OP with RSV zero (30 R60). -/
theorem fields_of_eq {v len pidx op : Nat} (hop : op < 4) (hpidx : pidx < 256)
    (hv : v = len * 65536 + pidx * 256 + op) :
    v / 4 % 64 = 0 ∧ v % 4 = op ∧ v / 256 % 256 = pidx ∧ v / 65536 = len := by
  omega

/-- A word with the number of a well-formed command decodes to it (30 R72). -/
theorem decode_of_toNat {cmd : Word} {i : Instr} (hwf : i.wf = true) (hv : cmd.toNat = wordValue i) :
    decode cmd = .instr i := by
  rw [decode_eq_of_toNat]
  cases i with
  | pcount k =>
    obtain ⟨hrsv, hop, hpidx, hlen⟩ := fields_of_eq (by decide) (by decide) hv
    simp [hrsv, hop, hpidx, hlen]
  | peval p n =>
    obtain ⟨hp, -⟩ : p < 256 ∧ n < 65536 := by simpa [Instr.wf] using hwf
    obtain ⟨hrsv, hop, hpidx, hlen⟩ := fields_of_eq (by decide) hp hv
    simp [hrsv, hop, hpidx, hlen]
  | encode k =>
    obtain ⟨hrsv, hop, hpidx, hlen⟩ := fields_of_eq (by decide) (by decide) hv
    simp [hrsv, hop, hpidx, hlen]
  | decode n =>
    obtain ⟨hrsv, hop, hpidx, hlen⟩ := fields_of_eq (by decide) (by decide) hv
    simp [hrsv, hop, hpidx, hlen]

/-- A word that decodes to a command is the number of that command: no bit of it is dropped (30 R72). -/
theorem toNat_of_decode {cmd : Word} {i : Instr} (h : decode cmd = .instr i) : cmd.toNat = wordValue i := by
  rw [decode_eq_of_toNat] at h
  split_ifs at h <;> cases h <;> simp only [wordValue] <;> omega

/-- The decoder and the encoder are inverse to each other on the well-formed commands (30 R60, R72). -/
theorem decode_eq_instr_iff (cmd : Word) (i : Instr) : decode cmd = .instr i ↔ i.wf = true ∧ encode i = cmd := by
  constructor
  · intro h
    have hwf : i.wf = true := (Machine.wf_and_operandLength_of_decode h).1
    exact ⟨hwf, BitVec.eq_of_toNat_eq ((toNat_encode hwf).trans (toNat_of_decode h).symm)⟩
  · rintro ⟨hwf, rfl⟩
    exact decode_of_toNat hwf (toNat_encode hwf)

/-- Settles O1, from the numbers of the words. -/
theorem decodeOfEncodeIsTheCommand : Obligations.DecodeOfEncodeIsTheCommand :=
  fun i hwf => (decode_eq_instr_iff (encode i) i).mpr ⟨hwf, rfl⟩

/-- Settles O2, from the numbers of the words. -/
theorem encodeOfDecodeIsTheWord : Obligations.EncodeOfDecodeIsTheWord :=
  fun cmd i => (decode_eq_instr_iff cmd i).mp

/-- Settles O4: the decoder evaluates each of the six closed words. -/
theorem specWordsDecode : Obligations.SpecWordsDecode := by
  unfold Obligations.SpecWordsDecode
  decide

end Sys2Proof
end

section
/-! The match and mask rows of the opcode table (30 R72): a row fits exactly the words that decode to a command of it. -/

namespace Sys2Proof

/-- A mask of the n low bits compares the remainder by 2^n. -/
theorem and_lowMask_eq_iff (cmd pattern : Word) (n : Nat) (hn : n ≤ 32) :
    cmd &&& BitVec.ofNat 32 (2 ^ n - 1) = pattern ↔ cmd.toNat % 2 ^ n = pattern.toNat := by
  have hmask : 2 ^ n - 1 < 2 ^ 32 := by
    have hpos : 0 < 2 ^ n := Nat.two_pow_pos n
    have hle : 2 ^ n ≤ 2 ^ 32 := Nat.pow_le_pow_right (by decide) hn
    omega
  rw [← BitVec.toNat_inj, BitVec.toNat_and, BitVec.toNat_ofNat, Nat.mod_eq_of_lt hmask, Nat.and_two_pow_sub_one_eq_mod]

/-- What the row of a command compares: RSV, OP and, but for PEVAL, PIDX (30 R72). -/
def rowTest (v : Nat) : Instr → Prop
  | .pcount _ => v % 65536 = 0
  | .peval _ _ => v % 256 = 1
  | .encode _ => v % 65536 = 2
  | .decode _ => v % 65536 = 3

theorem and_rowOf_mask_eq_iff (cmd : Word) (i : Instr) :
    cmd &&& (rowOf i).mask = (rowOf i).pattern ↔ rowTest cmd.toNat i := by
  cases i with
  | pcount k => exact and_lowMask_eq_iff cmd 0#32 16 (by decide)
  | peval p n => exact and_lowMask_eq_iff cmd 1#32 8 (by decide)
  | encode k => exact and_lowMask_eq_iff cmd 2#32 16 (by decide)
  | decode n => exact and_lowMask_eq_iff cmd 3#32 16 (by decide)

/-- The command of the same operation with the operands of the word's own fields (30 R63, R64). -/
def readOperands (cmd : Word) : Instr → Instr
  | .pcount _ => .pcount (cmd.toNat / 65536)
  | .peval _ _ => .peval (cmd.toNat / 256 % 256) (cmd.toNat / 65536)
  | .encode _ => .encode (cmd.toNat / 65536)
  | .decode _ => .decode (cmd.toNat / 65536)

theorem rowOf_readOperands (cmd : Word) (i : Instr) : rowOf (readOperands cmd i) = rowOf i := by
  cases i <;> rfl

theorem readOperands_readOperands (cmd : Word) (i : Instr) :
    readOperands cmd (readOperands cmd i) = readOperands cmd i := by
  cases i <;> rfl

theorem wf_readOperands (cmd : Word) (i : Instr) : (readOperands cmd i).wf = true := by
  have hlen : cmd.toNat / 65536 < 65536 := by have := cmd.isLt; omega
  have hpidx : cmd.toNat / 256 % 256 < 256 := Nat.mod_lt _ (by decide)
  cases i <;> simp [readOperands, Instr.wf, hlen, hpidx]

/-- A word that passes a row's test is the number of the command it spells there. -/
theorem rowTest_iff_toNat (cmd : Word) (i : Instr) :
    rowTest cmd.toNat i ↔ cmd.toNat = wordValue (readOperands cmd i) := by
  cases i <;> simp only [rowTest, readOperands, wordValue] <;> omega

/-- A word decodes to a command exactly when it matches the command's row and holds its operands (30 R72). -/
theorem decode_eq_instr_iff_row (cmd : Word) (i : Instr) :
    decode cmd = .instr i ↔ cmd &&& (rowOf i).mask = (rowOf i).pattern ∧ i = readOperands cmd i := by
  rw [and_rowOf_mask_eq_iff, rowTest_iff_toNat]
  constructor
  · intro h
    have hi : i = readOperands cmd i := by
      rw [decode_eq_of_toNat] at h
      split_ifs at h <;> cases h <;> rfl
    exact ⟨hi ▸ toNat_of_decode h, hi⟩
  · rintro ⟨hv, hi⟩
    rw [hi]
    exact decode_of_toNat (wf_readOperands cmd i) hv

/-- A row fits a word exactly when the word decodes to the command it spells in that row. -/
theorem fits_rowOf_iff (cmd : Word) (i : Instr) :
    (rowOf i).fits cmd = true ↔ decode cmd = .instr (readOperands cmd i) := by
  rw [decode_eq_instr_iff_row, rowOf_readOperands, readOperands_readOperands, OpcodeRow.fits, decide_eq_true_iff]
  exact (and_iff_left rfl).symm

theorem rowOf_mem_opcodeRows (i : Instr) : rowOf i ∈ opcodeRows := by
  cases i <;> simp [opcodeRows, rowOf]

theorem exists_rowOf_of_mem {row : OpcodeRow} (h : row ∈ opcodeRows) : ∃ i, row = rowOf i := by
  simp only [opcodeRows, List.mem_cons, List.not_mem_nil, or_false] at h
  obtain h | h | h | h := h <;> exact ⟨_, h⟩

/-- No word matches two rows, since it decodes to one command (30 R72). -/
theorem opcodeRows_disjoint {cmd : Word} {a b : OpcodeRow} (ha : a ∈ opcodeRows) (hb : b ∈ opcodeRows)
    (hfa : a.fits cmd = true) (hfb : b.fits cmd = true) : a = b := by
  obtain ⟨i, rfl⟩ := exists_rowOf_of_mem ha
  obtain ⟨j, rfl⟩ := exists_rowOf_of_mem hb
  have hij : readOperands cmd i = readOperands cmd j :=
    CmdOutcome.instr.inj (((fits_rowOf_iff cmd i).mp hfa).symm.trans ((fits_rowOf_iff cmd j).mp hfb))
  rw [← rowOf_readOperands cmd i, hij, rowOf_readOperands]

/-- The illegal words are exactly those that match no row (30 R72, R73). -/
theorem decode_eq_badCommand_iff (cmd : Word) :
    (∃ why, decode cmd = .badCommand why) ↔ ∀ row ∈ opcodeRows, row.fits cmd = false := by
  constructor
  · rintro ⟨why, hbad⟩ row hrow
    obtain ⟨i, rfl⟩ := exists_rowOf_of_mem hrow
    rw [Bool.eq_false_iff, ne_eq, fits_rowOf_iff, hbad]
    exact CmdOutcome.noConfusion
  · intro hnone
    cases h : decode cmd with
    | badCommand why => exact ⟨why, rfl⟩
    | instr i =>
      have hi : i = readOperands cmd i := ((decode_eq_instr_iff_row cmd i).mp h).2
      have hfits : (rowOf i).fits cmd = true := (fits_rowOf_iff cmd i).mpr (hi ▸ h)
      exact absurd hfits (Bool.eq_false_iff.mp (hnone _ (rowOf_mem_opcodeRows i)))

/-- Settles O3: the field clauses are the branches of the decoder, and the rest follows from the commands that each row
spells. -/
theorem commandDecodeIsTotalAndUnambiguous : Obligations.CommandDecodeIsTotalAndUnambiguous := by
  intro cmd
  refine ⟨fun hrsv => ?_, fun hrsv hop hpidx => ?_, fun hrsv hop hpidx => ?_, fun hrsv hop => ?_,
    fun hrsv hop hpidx => ?_, fun hrsv hop hpidx => ?_, decode_eq_instr_iff_row cmd, rfl, rowOf_mem_opcodeRows,
    fun a ha b hb => opcodeRows_disjoint ha hb, decode_eq_badCommand_iff cmd⟩
  all_goals rw [decode_eq_of_toNat]
  · exact ⟨_, if_pos hrsv⟩
  · exact ⟨.indexNonzero, by simp [hrsv, hop, hpidx]⟩
  · simp [hrsv, hop, hpidx]
  · simp [hrsv, hop]
  · simp [hrsv, hop, hpidx]
  · simp [hrsv, hop, hpidx]

end Sys2Proof
end

section
/-! The lines of the assembler, the response word and the placed word (30 R66, R75; log entry 7). -/

namespace Sys2Proof.Machine

/-- A line that can be spelled stands for a well-formed command (30 R75). -/
theorem wf_asmInstr (a : Asm) : (asmInstr a).wf = asmWf a := by
  cases a <;> rfl

/-- Settles O5: CMD is the number of the line's command, and IN is the value of its list. -/
theorem assemblerLineIsItsCommand : Obligations.AssemblerLineIsItsCommand := by
  intro a ha
  have hwf : (asmInstr a).wf = true := (wf_asmInstr a).trans ha
  refine ⟨(toNat_encode hwf).trans ?_, testBit_seqValue (asmSeq a), decodeOfEncodeIsTheCommand _ hwf,
    operand_seqValue (asmSeq a)⟩
  cases a <;> simp [wordValue, asmInstr]

/-- Settles O7, from RES0 as a number and the fields read back. -/
theorem responseFieldsStandInTheirPlaces : Obligations.ResponseFieldsStandInTheirPlaces := by
  intro f hr hlen hsyn
  obtain ⟨hst, hclean, hoc, hpbit, hrf, hrsv, hlenf⟩ := respond_fields f hr hlen
  refine ⟨?_, ?_, hrsv, hst, hoc, hrf, hlenf, ?_, ?_⟩
  · rw [respond_res0, packRes0_toNat, Nat.mod_eq_of_lt hr, Nat.mod_eq_of_lt hlen]
    cases f.status <;> cases f.outcome <;> rfl
  · rw [respond_res1, BitVec.toNat_ofNat]
    omega
  · rw [hclean]
    cases f.clean <;> decide
  · rw [hpbit]
    cases f.pbit <;> decide

theorem decode_tableWord_of_decodeTableWord {nbits w : Nat} {i : Instr} (h : decodeTableWord nbits w = some i) :
    decode (tableWord nbits w) = .instr i := by
  unfold decodeTableWord at h
  split at h
  · next j hj => exact Option.some.inj h ▸ hj
  · cases h

/-- Settles O46: the placed word is the held command, with the schedule empty, so the next step performs it. -/
theorem placedWordRunsNext : Obligations.PlacedWordRunsNext :=
  fun s nbits w i h => stepRunsTheDecodedCommand (s.withFetchWord nbits w) ⟨tableWord nbits w, 0⟩ i rfl (.inl rfl)
    (decode_tableWord_of_decodeTableWord h)

end Sys2Proof.Machine
end

section
/-! The parity count (40 R90..R94): PCOUNT as the threshold of its condition, and the closed form as the lengths at which
the condition holds at r and fails at r - 1. -/

namespace Sys2Proof.Machine

/-- The condition of PCOUNT's loop, once true, stays true (40 R92). -/
theorem pcount_condition_succ {k r : Nat} (h : k + r + 1 ≤ 2 ^ r) : k + (r + 1) + 1 ≤ 2 ^ (r + 1) := by
  rw [Nat.pow_succ]
  omega

/-- PCOUNT is the threshold of its condition (40 R92). -/
theorem pcount_le_iff {k r : Nat} (hr : 1 ≤ r) : pcount k ≤ r ↔ k + r + 1 ≤ 2 ^ r := by
  constructor
  · intro hle
    induction r, hle using Nat.le_induction with
    | base => exact pcount_pow k
    | succ q hq ih => exact pcount_condition_succ (ih (Nat.le_trans (pcount_pos k) hq))
  · intro h
    by_contra hlt
    have hq : 2 ^ r < k + r + 1 := lt_of_lt_pcount k r hr (Nat.not_le.mp hlt)
    omega

theorem pcount_isLeast (k : Nat) : IsLeast {r | 1 ≤ r ∧ k + r + 1 ≤ 2 ^ r} (pcount k) :=
  ⟨⟨pcount_pos k, pcount_pow k⟩, fun _ ⟨hr, h⟩ => (pcount_le_iff hr).mpr h⟩

/-- For a nonempty data length r = 0 never meets the condition, so the floor at 1 excludes nothing (40 R90). -/
theorem one_le_of_pcount_condition {k r : Nat} (hk : 1 ≤ k) (h : k + r + 1 ≤ 2 ^ r) : 1 ≤ r := by
  cases r with
  | zero => omega
  | succ q => exact Nat.succ_pos q

/-- PCOUNT is minimal in the source's sense (40 R93). -/
theorem two_pow_pred_pcount_lt {k : Nat} (hk : 1 ≤ k) : 2 ^ (pcount k - 1) < k + (pcount k - 1) + 1 := by
  have hpos : 1 ≤ pcount k := pcount_pos k
  by_contra hge
  have hcond : k + (pcount k - 1) + 1 ≤ 2 ^ (pcount k - 1) := Nat.not_lt.mp hge
  have hle : pcount k ≤ pcount k - 1 := (pcount_le_iff (one_le_of_pcount_condition hk hcond)).mpr hcond
  omega

@[simp] theorem pcount_zero : pcount 0 = 1 := by decide

/-- The closed form of PCOUNT: the condition holds at r and fails at r - 1 (40 R94). -/
theorem pcount_eq_iff {r k : Nat} (hr : 2 ≤ r) : pcount k = r ↔ 2 ^ (r - 1) - r + 1 ≤ k ∧ k ≤ 2 ^ r - r - 1 := by
  have hmeets : pcount k ≤ r ↔ k + r + 1 ≤ 2 ^ r := pcount_le_iff (Nat.le_of_succ_le hr)
  have hfails : pcount k ≤ r - 1 ↔ k + (r - 1) + 1 ≤ 2 ^ (r - 1) := pcount_le_iff (Nat.le_sub_one_of_lt hr)
  have hlow : r - 1 < 2 ^ (r - 1) := Nat.lt_two_pow_self
  have hhigh : r < 2 ^ r := Nat.lt_two_pow_self
  omega

/-- Between two data lengths of one count, every length has that count (40 R93). -/
theorem pcount_eq_of_between {a b r : Nat} (ha : pcount a = r) (hb : pcount b = r) (k : Nat) (hak : a ≤ k) (hkb : k ≤ b) :
    pcount k = r :=
  Nat.le_antisymm (hb ▸ pcount_mono hkb) (ha ▸ pcount_mono hak)

/-- The range of data lengths of a count r >= 2 is not empty (40 R94). -/
theorem pcount_range_nonempty {r : Nat} (hr : 2 ≤ r) : 2 ^ (r - 1) - r + 1 ≤ 2 ^ r - r - 1 := by
  have hlow : r - 1 < 2 ^ (r - 1) := Nat.lt_two_pow_self
  have hdouble : 2 ^ (r - 1) * 2 = 2 ^ r := pow_sub_one_mul (Nat.ne_zero_of_lt hr) 2
  omega

/-- The shortest and the longest codeword with r >= 2 parity bits (40 R94). -/
theorem codewordLength_range_ends {r : Nat} (hr : 2 ≤ r) :
    2 ^ (r - 1) - r + 1 + pcount (2 ^ (r - 1) - r + 1) = 2 ^ (r - 1) + 1 ∧
    2 ^ r - r - 1 + pcount (2 ^ r - r - 1) = 2 ^ r - 1 := by
  have hle : 2 ^ (r - 1) - r + 1 ≤ 2 ^ r - r - 1 := pcount_range_nonempty hr
  have hlow : r - 1 < 2 ^ (r - 1) := Nat.lt_two_pow_self
  have hhigh : r < 2 ^ r := Nat.lt_two_pow_self
  rw [(pcount_eq_iff hr).mpr ⟨Nat.le_refl _, hle⟩, (pcount_eq_iff hr).mpr ⟨hle, Nat.le_refl _⟩]
  omega

/-- A codeword of nonempty data has a length strictly between two neighbouring powers of two (40 R94). -/
theorem codewordLength_ne_two_pow {k : Nat} (hk : 1 ≤ k) (m : Nat) : k + pcount k ≠ 2 ^ m := by
  intro h
  have hpos : 1 ≤ pcount k := pcount_pos k
  have hmin : 2 ^ (pcount k - 1) < k + (pcount k - 1) + 1 := two_pow_pred_pcount_lt hk
  have hpow : k + pcount k + 1 ≤ 2 ^ pcount k := pcount_pow k
  have hlow : pcount k - 1 < m := (Nat.pow_lt_pow_iff_right (by decide : 1 < 2)).mp (by omega)
  have hhigh : m < pcount k := (Nat.pow_lt_pow_iff_right (by decide : 1 < 2)).mp (by omega)
  omega

theorem codewordLength_eq_two_pow_iff (k : Nat) : (∃ m, k + pcount k = 2 ^ m) ↔ k + pcount k = 1 := by
  constructor
  · rintro ⟨m, h⟩
    rcases Nat.eq_zero_or_pos k with rfl | hk
    · exact pcount_zero
    · exact absurd h (codewordLength_ne_two_pow hk m)
  · exact fun h => ⟨0, h⟩

/-- Settles O8, from the threshold form; for k >= 1 the floor at 1 excludes nothing. -/
theorem pcountIsTheLeastCount : Obligations.PcountIsTheLeastCount :=
  ⟨pcount_isLeast, fun k hk => ⟨pcount_pow k, fun _ h => (pcount_le_iff (one_le_of_pcount_condition hk h)).mpr h⟩,
    pcount_zero⟩

/-- Settles O9: the condition is an up-set, and PCOUNT meets it and is its threshold. -/
theorem pcountConditionIsAnUpSet : Obligations.PcountConditionIsAnUpSet :=
  fun k => ⟨fun _ => pcount_condition_succ, ⟨pcount k, pcount_pos k, pcount_pow k⟩, fun _ hr => (pcount_le_iff hr).symm⟩

/-- Settles O10, from the threshold form; at k = 0 the clause reads 1 < 1. -/
theorem pcountIsMonotoneAndMinimal : Obligations.PcountIsMonotoneAndMinimal :=
  ⟨fun _ _ => pcount_mono, fun _ => two_pow_pred_pcount_lt, by decide⟩

/-- Settles O11: the closed form, whose table rows follow from their two ends since PCOUNT is non-decreasing. -/
theorem pcountClosedForm : Obligations.PcountClosedForm := by
  refine ⟨pcount_zero, fun r k => pcount_eq_iff, by decide, pcount_eq_of_between ?_ ?_, pcount_eq_of_between ?_ ?_,
    pcount_eq_of_between ?_ ?_, pcount_eq_of_between ?_ ?_, pcount_eq_of_between ?_ ?_, pcount_eq_of_between ?_ ?_,
    pcount_eq_of_between ?_ ?_, fun r => codewordLength_range_ends, codewordLength_eq_two_pow_iff⟩
  all_goals decide

end Sys2Proof.Machine
end

section
/-! The completion of an operation, and of PCOUNT (40 R91, 30 R71). -/

namespace Sys2Proof.Machine

/-- An instruction on a held command answers with its response, and leaves the command port and the schedule (10 R23). -/
theorem answers_exec (i : Instr) (s : State) (held : Command) (P : Response → Prop) (h : s.phase = .busy held)
    (hP : P (instrResponse Config.nMax i held.inp)) : Answers (exec i s) s P :=
  ⟨_, _, exec_busy i s held h, hP, rfl, rfl, rfl, rfl, rfl⟩

/-- Settles O12, from the fields of the response: the count of a 16-bit length fits R. -/
theorem pcountCompletes : Obligations.PcountCompletes := by
  intro k s held hwf hs
  have hr : pcount k ≤ 17 := pcount_le_17 k (of_decide_eq_true hwf)
  obtain ⟨hst, hclean, hoc, hpbit, hrf, -, hlen⟩ :=
    respond_fields { r := pcount k } (Nat.lt_of_le_of_lt hr (by decide)) (show 0 < 65536 by decide)
  refine answers_exec _ s held _ hs ⟨hst, ?_, ?_, hclean, hoc, hpbit, BitVec.eq_of_toNat_eq hlen, rfl, rfl⟩
  · exact hrf ▸ pcount_isLeast k
  · exact hrf ▸ hr

end Sys2Proof.Machine
end

section
/-! The evaluator and the check as parities over the covering set, and what they do not read (41 R100, R102; 42 R115). -/

namespace Sys2Proof.Machine

/-- PEVAL is the parity of the set bits in the covering set without the slot of p itself (41 R100). -/
theorem peval_eq_oddCount (c : BitSeq) (p : Nat) :
    peval c p = oddCount c.length (fun i => covers p i && decide (i ≠ slot p) && elem c i) := by
  rw [peval_eq_xorSum, oddCount_eq_xorSum]

/-- The check is the parity of the set bits in the whole covering set (41 R102). -/
theorem check_eq_oddCount (c : BitSeq) (p : Nat) (h : slot p < c.length) :
    check c p = oddCount c.length (fun i => covers p i && elem c i) := by
  rw [check_eq_xorSum c p h, oddCount_eq_xorSum]

/-- PEVAL is the check of the sequence whose slot of p is read as 0 (90 C2). -/
theorem check_set_slot_false (c : BitSeq) (p : Nat) (h : slot p < c.length) :
    check (c.set (slot p) false) p = peval c p := by
  rw [check, peval_set_slot, elem_set, if_pos ⟨rfl, h⟩, Bool.xor_false]

/-- A check passes when the evaluator gives the stored bit (41 R102). -/
theorem check_eq_false_iff (c : BitSeq) (p : Nat) : check c p = false ↔ peval c p = elem c (slot p) :=
  bne_eq_false_iff_eq

/-- Every index that PEVAL reads is a data slot: of the parity slots, only that of p lies in its covering set (00 R13). -/
theorem isDataSlot_of_covers {p i : Nat} (hcov : covers p i = true) (hne : i ≠ slot p) : isDataSlot i = true := by
  rw [isDataSlot_iff]
  rintro q rfl
  have hqp : q = p := by simpa [covers_slot] using hcov
  exact hne (congrArg slot hqp)

/-- Settles O15: the second form is the check of the sequence with the slot read as 0. -/
theorem pevalIsXorOfTheCover : Obligations.PevalIsXorOfTheCover := by
  intro c p h
  refine ⟨peval_eq_oddCount c p, ?_⟩
  have hcheck := check_eq_oddCount (c.set (slot p) false) p (by rwa [List.length_set])
  rwa [check_set_slot_false c p h, List.length_set] at hcheck

/-- Settles O16, from the check as a parity and its definition. -/
theorem checkIsXorOfTheWholeCover : Obligations.CheckIsXorOfTheWholeCover :=
  fun c p h => ⟨check_eq_oddCount c p h, check_eq_false_iff c p⟩

/-- Settles O17: the sums agree term by term, since every index read is a data slot. -/
theorem pevalReadsNoParitySlot : Obligations.PevalReadsNoParitySlot := by
  intro c d p hlen hdata
  rw [peval_eq_xorSum, peval_eq_xorSum, ← hlen]
  refine xorSum_congr fun i hi => ?_
  by_cases hread : covers p i = true ∧ i ≠ slot p
  · obtain ⟨hcov, hne⟩ := hread
    rw [hdata i hi (isDataSlot_of_covers hcov hne)]
  · have hskip : (covers p i && decide (i ≠ slot p)) = false := by simpa using hread
    rw [hskip, Bool.false_and, Bool.false_and]

end Sys2Proof.Machine
end

section
/-! RDEC as a threshold (43 R130), the index check of PEVAL (41 R104), and the completion of PEVAL (41 R101, 30 R71). -/

namespace Sys2Proof.Machine

/-- RDEC is the threshold of its condition (43 R130). -/
theorem rdec_le_iff {n r : Nat} : rdec n ≤ r ↔ n + 1 ≤ 2 ^ r := by
  constructor
  · exact fun h => Nat.le_trans (rdec_pow n) (Nat.pow_le_pow_right (by decide) h)
  · intro h
    by_contra hlt
    have hr : 2 ^ r < n + 1 := lt_of_lt_rdec n r (Nat.not_le.mp hlt)
    omega

theorem rdec_isLeast (n : Nat) : IsLeast {r | n + 1 ≤ 2 ^ r} (rdec n) :=
  ⟨rdec_pow n, fun _ => rdec_le_iff.mpr⟩

/-- Settles O18, from the threshold form of RDEC at r = p. -/
theorem indexCheckAdmitsTheSlotsThatExist : Obligations.IndexCheckAdmitsTheSlotsThatExist := by
  intro n p
  have hslot : slot p + 1 = 2 ^ p := slot_succ p
  rw [← Nat.not_le, rdec_le_iff]
  omega

/-- PEVAL of an operand sequence, from the bits of its vector (30 R65, 41 R101). -/
theorem peval_operand (v n p : Nat) :
    peval (operand v n) p = oddCount n (fun i => covers p i && decide (i + 1 ≠ 2 ^ p) && v.testBit i) := by
  rw [peval_eq_xorSum, oddCount_eq_xorSum, length_operand]
  refine xorSum_congr fun i hi => ?_
  have hself : i ≠ slot p ↔ i + 1 ≠ 2 ^ p := by rw [← slot_succ p, ne_eq, ne_eq, Nat.add_right_cancel_iff]
  simp only [elem_operand, hi, hself, decide_true, Bool.true_and]

/-- The response of PEVAL to a length and an index it accepts (41 R101). -/
theorem pevalResponse_of_accepted {nMax p n : Nat} (inp : Nat) (hn : n ≤ nMax) (hp : p < rdec n) :
    pevalResponse nMax p n inp = respond { pbit := peval (operand inp n) p, r := rdec n } := by
  rw [pevalResponse, if_neg (Nat.not_lt.mpr hn), if_neg (Nat.not_le.mpr hp)]

theorem ofBool_eq_one_iff (b : Bool) : BitVec.ofBool b = 1#1 ↔ b = true := by
  cases b <;> decide

/-- Settles O19, from the fields of the response: the count of a length up to N_MAX fits R. -/
theorem pevalCompletes : Obligations.PevalCompletes := by
  intro p n s held hn hp hs
  obtain ⟨-, hmax⟩ := Config.nMax_bounds
  have hr : rdec n ≤ 16 := rdec_le_16 n (by omega)
  obtain ⟨hst, hclean, hoc, hpbit, hrf, -, hlen⟩ :=
    respond_fields { pbit := peval (operand held.inp n) p, r := rdec n } (Nat.lt_of_le_of_lt hr (by decide))
      (show 0 < 65536 by decide)
  refine answers_exec _ s held _ hs ?_
  rw [instrResponse, pevalResponse_of_accepted held.inp hn hp]
  refine ⟨hst, ?_, ?_, hclean, hoc, BitVec.eq_of_toNat_eq hlen, rfl, rfl⟩
  · rw [hpbit, ofBool_eq_one_iff, peval_operand]
    exact Iff.rfl
  · exact hrf ▸ rdec_isLeast n

end Sys2Proof.Machine
end

section
/-! The slots of a codeword length, counted (42 R116, R117; 43 R142), and the rank of a data slot (42 R118). -/

namespace Sys2Proof.Machine

/-- The decoder's count of a codeword length is the encoder's count (43 R142). -/
theorem rdec_add_pcount (k : Nat) : rdec (k + pcount k) = pcount k := by
  refine rdec_eq_of _ _ (pcount_pow k) fun q hq => ?_
  rcases Nat.eq_zero_or_pos q with rfl | hpos
  · have h : 1 ≤ pcount k := pcount_pos k
    omega
  · have h : 2 ^ q < k + q + 1 := lt_of_lt_pcount k q hpos hq
    omega

/-- The closed form of RDEC on the nonempty lengths (43 R130). -/
theorem rdec_eq_log {n : Nat} (hn : 1 ≤ n) : rdec n = Nat.log 2 n + 1 :=
  eq_of_forall_ge_iff fun r => by
    rw [rdec_le_iff, Nat.succ_le_iff, Nat.succ_le_iff, Nat.log_lt_iff_lt_pow (by decide) (Nat.ne_of_gt hn)]

/-- The slots that are no data slots number RDEC(n) (42 R116). -/
theorem length_filter_not_isDataSlot (n : Nat) : ((List.range n).filter (fun i => !isDataSlot i)).length = rdec n := by
  have hsplit := List.length_eq_length_filter_add (l := List.range n) isDataSlot
  have hsum : dataSlotsBelow n + rdec n = n := dataSlotsBelow_add_rdec n
  rw [List.length_range, length_filter_isDataSlot] at hsplit
  omega

theorem dataSlotsBelow_add_pcount (k : Nat) : dataSlotsBelow (k + pcount k) = k := by
  have hsum : dataSlotsBelow (k + pcount k) + rdec (k + pcount k) = k + pcount k := dataSlotsBelow_add_rdec _
  rw [rdec_add_pcount] at hsum
  omega

/-- The position of a data slot's bit is the number of data slots below it (42 R118). -/
theorem dataIndex_eq_dataSlotsBelow {i : Nat} (hi : isDataSlot i = true) : dataIndex i = dataSlotsBelow i := by
  have hsum : dataSlotsBelow (i + 1) + rdec (i + 1) = i + 1 := dataSlotsBelow_add_rdec (i + 1)
  have hlog : rdec (i + 1) = Nat.log 2 (i + 1) + 1 := rdec_eq_log (Nat.succ_pos i)
  have hnext : dataSlotsBelow (i + 1) = dataSlotsBelow i + 1 := by rw [dataSlotsBelow, hi, Bool.toNat_true]
  rw [dataIndex]
  omega

/-- The slots that lie inside a codeword are those of the indices below its parity count (42 R117). -/
theorem slot_lt_codewordLength_iff (k p : Nat) : slot p < k + pcount k ↔ p < pcount k := by
  rw [← indexCheckAdmitsTheSlotsThatExist, rdec_add_pcount]

/-- Settles O22, from the counts of the slots below n and RDEC(k + PCOUNT(k)) = PCOUNT(k). -/
theorem codewordSlotsAreCounted : Obligations.CodewordSlotsAreCounted := by
  intro k
  refine ⟨?_, ?_, fun i _ => isDataSlot_eq_false_iff i, ?_, rdec_add_pcount k⟩
  · rw [length_filter_isDataSlot, dataSlotsBelow_add_pcount]
  · rw [length_filter_not_isDataSlot, rdec_add_pcount]
  · rw [← rdec_eq_log (Nat.le_add_left_of_le (pcount_pos k)), rdec_add_pcount]

/-- Settles O23: the greatest parity index lies below the count. -/
theorem highestSlotLiesInTheCodeword : Obligations.HighestSlotLiesInTheCodeword :=
  fun k => (slot_lt_codewordLength_iff k _).mpr (Nat.sub_one_lt_of_lt (pcount_pos k))

end Sys2Proof.Machine
end

section
/-! The working codeword after data placement and after the parity fill (42 R110..R112, R115, R118; 70 R197). -/

namespace Sys2Proof.Machine

section
variable (d : BitSeq)

@[simp] theorem placeData_r : (placeData d (encodeSizes d)).r = pcount d.length := by
  obtain ⟨hr, -⟩ := placeWalk_spec d _ (Nat.le_refl _)
  exact hr

@[simp] theorem placeData_n : (placeData d (encodeSizes d)).n = d.length + pcount d.length := by
  obtain ⟨-, hn, -⟩ := placeWalk_spec d _ (Nat.le_refl _)
  exact hn

@[simp] theorem length_placeData_w : (placeData d (encodeSizes d)).w.length = d.length + pcount d.length := by
  obtain ⟨-, -, hlen, -⟩ := placeWalk_spec d _ (Nat.le_refl _)
  exact hlen

/-- The cursor has consumed exactly the data (42 R111). -/
@[simp] theorem placeData_j : (placeData d (encodeSizes d)).j = d.length := by
  obtain ⟨-, -, -, hj, -⟩ := placeWalk_spec d _ (Nat.le_refl _)
  exact hj.trans (dataSlotsBelow_add_pcount d.length)

/-- A data slot holds the data bit of its rank, every other slot 0 (42 R111). -/
theorem elem_placeData (i : Nat) (hi : i < d.length + pcount d.length) :
    elem (placeData d (encodeSizes d)).w i = (isDataSlot i && elem d (dataIndex i)) := by
  obtain ⟨-, -, -, -, he⟩ := placeWalk_spec d _ (Nat.le_refl _)
  refine (he i).trans ?_
  cases hdata : isDataSlot i with
  | false => simp
  | true => simp [hi, dataIndex_eq_dataSlotsBelow hdata]

theorem encodeWork_eq_foldl :
    encodeWork d = (List.range (pcount d.length)).foldl fillStep (placeData d (encodeSizes d)) := by
  rw [encodeWork, fillParity, placeData_r]

/-- The parity fill does not move the cursor (70 R197). -/
@[simp] theorem encodeWork_j : (encodeWork d).j = d.length := by
  obtain ⟨-, -, hj, -⟩ := fillWalk_spec (placeData d (encodeSizes d)) (List.range (pcount d.length))
  rw [encodeWork_eq_foldl, hj, placeData_j]

/-- The parity fill changes no evaluator value (42 R115). -/
theorem peval_enc (p : Nat) : peval (enc d) p = peval (placeData d (encodeSizes d)).w p := by
  obtain ⟨-, -, -, -, hp, -⟩ := fillWalk_spec (placeData d (encodeSizes d)) (List.range (pcount d.length))
  rw [enc, encodeWork_eq_foldl, hp]

/-- An element of a codeword: the evaluator value at a slot that was filled, else the placed bit (42 R112). -/
theorem elem_enc {i : Nat} (hi : i < d.length + pcount d.length) :
    elem (enc d) i = if ∃ p ∈ List.range (pcount d.length), i = slot p
      then peval (enc d) (Nat.log 2 (i + 1)) else elem (placeData d (encodeSizes d)).w i := by
  obtain ⟨-, -, -, -, -, he⟩ := fillWalk_spec (placeData d (encodeSizes d)) (List.range (pcount d.length))
  rw [peval_enc, enc, encodeWork_eq_foldl, he i (by rwa [length_placeData_w])]

/-- The parity fill leaves every data slot (70 R197). -/
theorem elem_enc_of_isDataSlot {i : Nat} (hdata : isDataSlot i = true) :
    elem (enc d) i = elem (placeData d (encodeSizes d)).w i := by
  by_cases hi : i < d.length + pcount d.length
  · rw [elem_enc d hi, if_neg]
    rintro ⟨p, -, hp⟩
    exact (isDataSlot_iff i).mp hdata p hp
  · rw [elem_of_length_le _ _ (by simpa using hi), elem_of_length_le _ _ (by simpa using hi)]

/-- Data slot i of a codeword holds the data bit of its rank (42 R118). -/
theorem elem_enc_eq_elem_dataIndex {i : Nat} (hi : i < d.length + pcount d.length) (hdata : isDataSlot i = true) :
    elem (enc d) i = elem d (dataIndex i) := by
  rw [elem_enc_of_isDataSlot d hdata, elem_placeData d i hi, hdata, Bool.true_and]

/-- Parity slot p of a codeword holds the evaluator's value (42 R115). -/
theorem elem_enc_slot {p : Nat} (hp : p < pcount d.length) : elem (enc d) (slot p) = peval (enc d) p := by
  rw [elem_enc d ((slot_lt_codewordLength_iff d.length p).mpr hp), if_pos ⟨p, List.mem_range.mpr hp, rfl⟩, slot_succ,
    Nat.log_pow (by decide)]

/-- Every check of a codeword passes (42 R115). -/
theorem check_enc {p : Nat} (hp : p < pcount d.length) : check (enc d) p = false :=
  (check_eq_false_iff _ _).mpr (elem_enc_slot d hp).symm

end

/-- Two turns of the parity fill commute: each writes its own slot, and no evaluator value reads a slot (42 R115). -/
theorem fillStep_comm (k : EncodeWork) (p q : Nat) : fillStep (fillStep k p) q = fillStep (fillStep k q) p := by
  rcases eq_or_ne p q with rfl | hne
  · rfl
  · have hslot : slot p ≠ slot q := fun h => hne (slot_injective h)
    simp only [fillStep, peval_set_slot, List.set_comm _ _ hslot]

/-- Settles O20, from what placement leaves and what the fill keeps. -/
theorem placementConsumesTheDataInOrder : Obligations.PlacementConsumesTheDataInOrder := by
  intro d
  refine ⟨placeData_r d, placeData_n d, ?_, placeData_j d, fun i hi => ?_, encodeWork_j d, length_enc d,
    fun i => elem_enc_of_isDataSlot d⟩
  · rw [length_placeData_w, placeData_n]
  · exact elem_placeData d i (by rwa [placeData_n] at hi)

/-- Settles O21: slot p holds the evaluator's value, and the turns of the fill commute. -/
theorem everyCheckPassesInAnyFillOrder : Obligations.EveryCheckPassesInAnyFillOrder := by
  intro d
  refine ⟨fun p hp => ⟨(elem_enc_slot d hp).symm, check_enc d hp⟩, fun ps hps => ?_⟩
  rw [encodeWork_eq_foldl]
  exact hps.foldl_eq' (fun p _ q _ k => fillStep_comm k p q) _

/-- The covering set of p without its own slot is the data slots of the covering set (00 R13). -/
theorem covers_and_ne_slot_eq (p i : Nat) : (covers p i && decide (i ≠ slot p)) = (covers p i && isDataSlot i) := by
  by_cases hcov : covers p i = true
  · by_cases hself : i = slot p
    · simp [hself, isDataSlot_slot]
    · simp [hself, isDataSlot_of_covers hcov hself]
  · simp [hcov]

/-- PEVAL is the parity of the set data slots of the covering set (42 R118). -/
theorem peval_eq_oddCount_dataSlots (c : BitSeq) (p : Nat) :
    peval c p = oddCount c.length (fun i => covers p i && isDataSlot i && elem c i) := by
  simp only [peval_eq_oddCount, covers_and_ne_slot_eq]

/-- Settles O24: the parity slots at or below i number RDEC(i + 1); the elements follow from placement and fill, and the
codeword of four data bits by evaluation. -/
theorem codewordClosedForms : Obligations.CodewordClosedForms := by
  refine ⟨fun i => ?_, fun d i => elem_enc_eq_elem_dataIndex d, fun d p hp => ?_, by decide⟩
  · rw [length_filter_not_isDataSlot, rdec_eq_log (Nat.succ_pos i)]
  · rw [elem_enc_slot d hp, ← length_enc]
    exact peval_eq_oddCount_dataSlots (enc d) p

end Sys2Proof.Machine
end

section
/-! The syndrome as a linear map of the received word, and the words it sends to 0 (42 R115, R118; 43 R140; 90 C8). -/

namespace Sys2Proof.Machine

/-- Syndrome bit p is the check of p, for the p whose slots exist (43 R131). -/
theorem testBit_syndrome (c : BitSeq) (p : Nat) :
    (syndrome c).testBit p = (decide (p < rdec c.length) && check c p) := by
  obtain ⟨-, -, -, -, hbit⟩ := syndromeWalk_spec c (rdec c.length)
  exact hbit p

/-- No index of the sequence lies in the covering set of a p whose slot does not exist (41 R104). -/
theorem covers_eq_false_of_rdec_le {n p i : Nat} (hp : rdec n ≤ p) (hi : i < n) : covers p i = false := by
  have hn : n + 1 ≤ 2 ^ p := rdec_le_iff.mp hp
  exact Nat.testBit_lt_two_pow (by omega)

theorem xorSum_eq_false {f : Nat → Bool} {n : Nat} (h : ∀ i, i < n → f i = false) : xorSum f n = false := by
  induction n with
  | zero => rfl
  | succ n ih => rw [xorSum_succ, h n (Nat.lt_succ_self n), ih fun i hi => h i (Nat.lt_succ_of_lt hi), Bool.xor_false]

/-- Syndrome bit p is the XOR over the covering set of p, for every p (43 R140). -/
theorem testBit_syndrome_eq_xorSum (c : BitSeq) (p : Nat) :
    (syndrome c).testBit p = xorSum (fun i => covers p i && elem c i) c.length := by
  rw [testBit_syndrome]
  by_cases hp : p < rdec c.length
  · rw [check_eq_xorSum c p ((indexCheckAdmitsTheSlotsThatExist _ _).mp hp), decide_eq_true hp, Bool.true_and]
  · have hnone : ∀ i, i < c.length → (covers p i && elem c i) = false := fun i hi => by
      rw [covers_eq_false_of_rdec_le (Nat.not_lt.mp hp) hi, Bool.false_and]
    rw [xorSum_eq_false hnone, decide_eq_false hp, Bool.false_and]

/-- Flipping index i XORs the syndrome with i + 1 (43 R140). -/
theorem syndrome_flipAt (c : BitSeq) {i : Nat} (hi : i < c.length) :
    syndrome (flipAt c i) = syndrome c ^^^ (i + 1) := by
  refine Nat.eq_of_testBit_eq fun p => ?_
  have hterm : ∀ j, j < c.length → (covers p j && elem (flipAt c i) j) =
      ((covers p j && elem c j) ^^ (decide (j = i) && covers p i)) := fun j _ => by
    rw [elem_flipAt c i j hi]
    rcases eq_or_ne j i with rfl | hne
    · cases covers p j <;> simp
    · simp [hne]
  rw [Nat.testBit_xor, testBit_syndrome_eq_xorSum, testBit_syndrome_eq_xorSum, length_flipAt, xorSum_congr hterm,
    xorSum_xor, xorSum_single, decide_eq_true hi, Bool.true_and]
  rfl

theorem syndrome_eq_zero_iff (c : BitSeq) : syndrome c = 0 ↔ ∀ p, p < rdec c.length → check c p = false := by
  refine ⟨fun h p hp => ?_, fun h => Nat.eq_of_testBit_eq fun p => ?_⟩
  · have hbit := testBit_syndrome c p
    rw [h, Nat.zero_testBit, decide_eq_true hp, Bool.true_and] at hbit
    exact hbit.symm
  · rw [testBit_syndrome, Nat.zero_testBit]
    by_cases hp : p < rdec c.length
    · simp [h p hp]
    · simp [hp]

/-- A codeword has syndrome 0 (43 R141). -/
@[simp] theorem syndrome_enc (d : BitSeq) : syndrome (enc d) = 0 :=
  (syndrome_eq_zero_iff _).mpr fun _ hp => check_enc d (by rwa [length_enc, rdec_add_pcount] at hp)

/-- A word with syndrome 0 is determined by its data slots: every parity slot holds the evaluator's value, which reads data
slots alone (42 R115). -/
theorem eq_of_dataSlots_of_syndrome_eq_zero {c e : BitSeq} (hlen : c.length = e.length) (hc : syndrome c = 0)
    (he : syndrome e = 0) (hdata : ∀ i, i < c.length → isDataSlot i = true → elem c i = elem e i) : c = e := by
  refine seq_ext c e hlen fun i hi => ?_
  cases hslot : isDataSlot i with
  | true => exact hdata i hi hslot
  | false =>
    obtain ⟨p, rfl⟩ := exists_slot_of_not_dataSlot i hslot
    have hp : p < rdec c.length := (indexCheckAdmitsTheSlotsThatExist _ _).mpr hi
    have hcheckc := (check_eq_false_iff c p).mp ((syndrome_eq_zero_iff c).mp hc p hp)
    have hchecke := (check_eq_false_iff e p).mp ((syndrome_eq_zero_iff e).mp he p (hlen ▸ hp))
    rw [← hcheckc, ← hchecke]
    exact pevalReadsNoParitySlot c e p hlen hdata

/-- A data slot stands in the list of data slots at its rank. -/
theorem getElem?_filter_isDataSlot {n i : Nat} (hi : i < n) (hdata : isDataSlot i = true) :
    ((List.range n).filter isDataSlot)[dataSlotsBelow i]? = some i := by
  induction n with
  | zero => cases hi
  | succ n ih =>
    rw [List.range_succ, List.filter_append]
    rcases Nat.lt_succ_iff_lt_or_eq.mp hi with hlt | rfl
    · have hsome := ih hlt
      obtain ⟨hbound, -⟩ := List.getElem?_eq_some_iff.mp hsome
      rw [List.getElem?_append_left hbound, hsome]
    · rw [← length_filter_isDataSlot i]
      simp [hdata]

/-- The data slots below n hold the first data bits, as many as there are. -/
theorem dataIndex_lt_dataSlotsBelow {n i : Nat} (hi : i < n) (hdata : isDataSlot i = true) :
    dataIndex i < dataSlotsBelow n := by
  obtain ⟨hbound, -⟩ := List.getElem?_eq_some_iff.mp (getElem?_filter_isDataSlot hi hdata)
  rwa [length_filter_isDataSlot, ← dataIndex_eq_dataSlotsBelow hdata] at hbound

/-- The extractor puts the bit of data slot i at its rank (43 R136). -/
theorem elem_extract {w : BitSeq} {i : Nat} (hi : i < w.length) (hdata : isDataSlot i = true) :
    elem (extract w) (dataIndex i) = elem w i := by
  rw [dataIndex_eq_dataSlotsBelow hdata, extract_eq, elem, List.getD_eq_getElem?_getD, List.getElem?_map,
    getElem?_filter_isDataSlot hi hdata]
  rfl

/-- The words with syndrome 0 of a codeword length are the codewords (42 R115, R118). -/
theorem syndrome_eq_zero_iff_eq_enc_extract {c : BitSeq}
    (hlen : c.length = (extract c).length + pcount (extract c).length) : syndrome c = 0 ↔ c = enc (extract c) := by
  constructor
  · intro hzero
    refine eq_of_dataSlots_of_syndrome_eq_zero (by rw [length_enc, hlen]) hzero (syndrome_enc _) fun i hi hdata => ?_
    rw [elem_enc_eq_elem_dataIndex _ (hlen ▸ hi) hdata, elem_extract hi hdata]
  · intro heq
    rw [heq, syndrome_enc]

/-- A word of a codeword length with syndrome 0 is the codeword of data of that codeword's data length. -/
theorem exists_eq_enc_of_syndrome_eq_zero {w : BitSeq} {k : Nat} (hw : w.length = k + pcount k) (hzero : syndrome w = 0) :
    ∃ d, d.length = k ∧ w = enc d := by
  have hk : (extract w).length = k := by rw [length_extract, hw, rdec_add_pcount, Nat.add_sub_cancel]
  exact ⟨extract w, hk, (syndrome_eq_zero_iff_eq_enc_extract (by rw [hk, hw])).mp hzero⟩

/-- Two flips at different indices and one flip elsewhere than at the first give words that differ at the first index. -/
theorem flipAt_flipAt_ne {c : BitSeq} {i j q : Nat} (hi : i < c.length) (hj : j < c.length) (hq : q < c.length)
    (hij : i ≠ j) (hiq : i ≠ q) : flipAt (flipAt c i) j ≠ flipAt c q := by
  intro h
  have helem : elem (flipAt (flipAt c i) j) i = elem (flipAt c q) i := by rw [h]
  rw [elem_flipAt _ _ _ (by rwa [length_flipAt]), elem_flipAt c i i hi, elem_flipAt c q i hq] at helem
  simp [hij, hiq] at helem

/-- Settles O38: flipping the position that the two flips XOR to brings the syndrome back to 0, so it leads to a codeword,
which is not the first one, since index i differs. -/
theorem zeroSyndromeWordsAreTheCodewords : Obligations.ZeroSyndromeWordsAreTheCodewords := by
  refine ⟨fun c => syndrome_eq_zero_iff_eq_enc_extract, ?_⟩
  intro d i j hi hj hij s hs
  have hpos : 0 < s := Nat.pos_of_ne_zero fun h => hij (Nat.succ_injective (Nat.xor_eq_zero_iff.mp h))
  have hiq : i ≠ s - 1 := fun h => by
    have hself : (i + 1) ^^^ (j + 1) = (i + 1) ^^^ 0 := by
      show s = _
      rw [Nat.xor_zero]
      omega
    exact Nat.succ_ne_zero j (Nat.xor_right_inj.mp hself)
  have hq : s - 1 < (enc d).length := by omega
  have hword : s - 1 < (flipAt (flipAt (enc d) i) j).length := by rwa [length_flipAt, length_flipAt]
  have hzero : syndrome (flipAt (flipAt (flipAt (enc d) i) j) (s - 1)) = 0 := by
    rw [syndrome_flipAt _ hword, syndrome_flipAt _ (by rwa [length_flipAt]), syndrome_flipAt _ hi, syndrome_enc,
      Nat.zero_xor, Nat.sub_add_cancel hpos, Nat.xor_self]
  obtain ⟨d', hlen, hcode⟩ := exists_eq_enc_of_syndrome_eq_zero (k := d.length) (by simp) hzero
  have hsame : flipAt (flipAt (enc d) i) j = flipAt (enc d') (s - 1) := by rw [← hcode, flipAt_flipAt _ _ hword]
  refine ⟨d', hlen, fun hd => ?_, hsame⟩
  rw [hd] at hsame
  exact flipAt_flipAt_ne hi hj hq hij hiq hsame

end Sys2Proof.Machine
end

section
/-! The completion of ENCODE (42 R114, 30 R71). -/

namespace Sys2Proof.Machine

/-- The response of ENCODE to a length it accepts (42 R114). -/
theorem encodeResponse_of_le {nMax k : Nat} (inp : Nat) (h : k + pcount k ≤ nMax) :
    encodeResponse nMax k inp = respond { r := pcount k, outLen := k + pcount k, out := enc (operand inp k) } := by
  rw [encodeResponse, if_neg (Nat.not_lt.mpr h)]

/-- The bits of IN stand on OUT in order at the data slots (42 R111, R114). -/
theorem elem_enc_operand (v : Nat) {k i : Nat} (hi : i < k + pcount k) (hdata : isDataSlot i = true) :
    elem (enc (operand v k)) i = v.testBit (dataIndex i) := by
  have hrank : dataIndex i < k := dataSlotsBelow_add_pcount k ▸ dataIndex_lt_dataSlotsBelow hi hdata
  rw [elem_enc_eq_elem_dataIndex _ (by rwa [length_operand]) hdata, elem_operand, decide_eq_true hrank, Bool.true_and]

/-- Every covering set of a codeword holds an even number of set bits (42 R115). -/
theorem oddCount_enc (d : BitSeq) {p : Nat} (hp : p < pcount d.length) :
    oddCount (d.length + pcount d.length) (fun i => covers p i && elem (enc d) i) = false := by
  rw [← check_enc d hp, check_eq_oddCount _ _ (by rwa [length_enc, slot_lt_codewordLength_iff]), length_enc]

/-- Settles O26, from the fields of the response: a length up to K_MAX is accepted, and its counts fit R and OUT_LEN. -/
theorem encodeCompletes : Obligations.EncodeCompletes := by
  intro k s held hk hs
  obtain ⟨hlo, hhi⟩ := Config.nMax_bounds
  have hfit : k + pcount k ≤ Config.nMax :=
    Nat.not_lt.mp fun h => Nat.not_lt.mpr hk ((lt_add_pcount_iff_kMaxFor_lt _ k (by omega)).mp h)
  have hr : pcount k ≤ 17 := pcount_le_17 k (by omega)
  obtain ⟨hst, hclean, hoc, hpbit, hrf, -, hlen⟩ :=
    respond_fields { r := pcount k, outLen := k + pcount k, out := enc (operand held.inp k) }
      (Nat.lt_of_le_of_lt hr (by decide)) (Nat.lt_succ_of_le (Nat.le_trans hfit hhi))
  refine answers_exec _ s held _ hs ?_
  rw [instrResponse, encodeResponse_of_le held.inp hfit]
  simp only [respond_out, testBit_seqValue]
  rw [hrf, hlen]
  refine ⟨hst, pcount_isLeast k, rfl, ?_, fun i hi hdata => ?_, fun p hp => ?_, hclean, hoc, hpbit, rfl⟩
  · simpa using seqValue_lt (enc (operand held.inp k))
  · exact elem_enc_operand _ hi (decide_eq_true fun hz => hdata ((and_succ_eq_zero_iff i).mp hz))
  · have heven := oddCount_enc (operand held.inp k) (by rwa [length_operand])
    rwa [length_operand] at heven

end Sys2Proof.Machine
end

section
/-! DEC by the syndrome (43 R132..R138), and the decoder as the inverse of the encoder (43 R141, R143). -/

namespace Sys2Proof.Machine

/-- DEC in terms of the syndrome and the corrected copy (43 R135, R138). -/
theorem dec_eq (c : BitSeq) :
    dec c = (extract (decodeWork c).w, syndrome c, outcomeOf (syndrome c) c.length) := by
  obtain ⟨hs, hn, -⟩ := decodeWork_eq c
  rw [dec, hs, hn]

/-- With syndrome 0 the extractor reads the received word (43 R132, R133). -/
theorem dec_of_syndrome_eq_zero {c : BitSeq} (h : syndrome c = 0) : dec c = (extract c, 0, .clean) := by
  obtain ⟨-, -, hw⟩ := decodeWork_eq c
  rw [dec_eq, hw, h]
  rfl

/-- With a syndrome that names an index, the extractor reads the word with that index flipped (43 R132, R133). -/
theorem dec_of_syndrome_eq_succ {c : BitSeq} {q : Nat} (hq : q < c.length) (h : syndrome c = q + 1) :
    dec c = (extract (flipAt c q), q + 1, .corrected) := by
  obtain ⟨-, -, hw⟩ := decodeWork_eq c
  rw [dec_eq, hw, h, if_pos ⟨Nat.succ_pos q, hq⟩, outcomeOf, if_neg (Nat.succ_ne_zero q), if_pos (Nat.succ_le_of_lt hq)]
  rfl

/-- With a syndrome above the length nothing is corrected (43 R132, R133). -/
theorem dec_of_length_lt_syndrome {c : BitSeq} (h : c.length < syndrome c) :
    dec c = (extract c, syndrome c, .uncorrectable) := by
  obtain ⟨-, -, hw⟩ := decodeWork_eq c
  rw [dec_eq, hw, if_neg fun hle => Nat.not_lt.mpr hle.2 h, outcomeOf, if_neg (Nat.ne_zero_of_lt h),
    if_neg (Nat.not_le.mpr h)]

/-- Every rank below the number of data slots is that of a data slot. -/
theorem exists_dataSlot_of_lt {n j : Nat} (h : j < dataSlotsBelow n) :
    ∃ i, i < n ∧ isDataSlot i = true ∧ dataIndex i = j := by
  induction n with
  | zero => cases h
  | succ n ih =>
    by_cases hlt : j < dataSlotsBelow n
    · obtain ⟨i, hi, hdata⟩ := ih hlt
      exact ⟨i, Nat.lt_succ_of_lt hi, hdata⟩
    · rw [dataSlotsBelow] at h
      have hdata : isDataSlot n = true := by
        cases hd : isDataSlot n with
        | true => rfl
        | false => rw [hd, Bool.toNat_false] at h; omega
      refine ⟨n, Nat.lt_succ_self n, hdata, ?_⟩
      rw [hdata, Bool.toNat_true] at h
      rw [dataIndex_eq_dataSlotsBelow hdata]
      omega

/-- The extractor collects the data that the encoder placed (42 R118, 43 R136). -/
@[simp] theorem extract_enc (d : BitSeq) : extract (enc d) = d := by
  have hlen : (extract (enc d)).length = d.length := by
    rw [length_extract, length_enc, rdec_add_pcount, Nat.add_sub_cancel]
  refine seq_ext _ _ hlen fun j hj => ?_
  rw [hlen, ← dataSlotsBelow_add_pcount d.length] at hj
  obtain ⟨i, hi, hdata, rfl⟩ := exists_dataSlot_of_lt hj
  rw [elem_extract (by rwa [length_enc]) hdata, elem_enc_eq_elem_dataIndex d hi hdata]

/-- Settles O34: a codeword has syndrome 0, and the extractor inverts the placement. -/
theorem decodeOfEncodeIsTheData : Obligations.DecodeOfEncodeIsTheData := by
  intro d
  rw [dec_of_syndrome_eq_zero (syndrome_enc d), extract_enc]

/-- Settles O35: one flip at index i gives syndrome i + 1, and the corrector flips that index back. -/
theorem anySingleErrorIsCorrected : Obligations.AnySingleErrorIsCorrected := by
  intro d i hi
  have hs : syndrome (flipAt (enc d) i) = i + 1 := by rw [syndrome_flipAt _ hi, syndrome_enc, Nat.zero_xor]
  rw [dec_of_syndrome_eq_succ (by rwa [length_flipAt]) hs, flipAt_flipAt _ _ hi, extract_enc]

end Sys2Proof.Machine
end

section
/-! The response of DECODE by its fields, and the round trip on the machine (43 R139, R141, R143; 30 R67). -/

namespace Sys2Proof.Machine

/-- The result fields of DECODE for a length it accepts, from DEC's triple (43 R139). -/
def decodeFields (n : Nat) (data : BitSeq) (syn : Nat) (oc : DecodeOutcome) : ResultFields where
  clean := decide (syn = 0)
  outcome := oc
  r := rdec n
  outLen := n - rdec n
  syndrome := syn
  out := data

theorem instrResponse_decode_of_dec {nMax n inp syn : Nat} {data : BitSeq} {oc : DecodeOutcome} (hn : n ≤ nMax)
    (hdec : dec (operand inp n) = (data, syn, oc)) :
    instrResponse nMax (.decode n) inp = respond (decodeFields n data syn oc) := by
  rw [instrResponse, decodeResponse, if_neg (Nat.not_lt.mpr hn), hdec]
  rfl

/-- DEC's syndrome has RDEC(n) bits (43 R131). -/
theorem dec_syndrome_lt {c data : BitSeq} {syn : Nat} {oc : DecodeOutcome} (h : dec c = (data, syn, oc)) :
    syn < 2 ^ rdec c.length := by
  rw [dec_eq, Prod.mk.injEq, Prod.mk.injEq] at h
  obtain ⟨-, rfl, -⟩ := h
  exact syndrome_lt_two_pow_rdec c

/-- What DECODE shows of a length it accepts is DEC's triple (43 R139, 30 R66, R67): a length up to N_MAX keeps every field
inside its width. -/
theorem decodeResponse_fields {n inp syn : Nat} {data : BitSeq} {oc : DecodeOutcome} (hn : n ≤ Config.nMax)
    (hdec : dec (operand inp n) = (data, syn, oc)) :
    let r := instrResponse Config.nMax (.decode n) inp
    statusField r = 0#2 ∧ (cleanField r = 1#1 ↔ syn = 0) ∧ outcomeField r = outcomeCode oc ∧ pbitField r = 0#1 ∧
    (rField r).toNat = rdec n ∧ (outLenField r).toNat = n - rdec n ∧ r.res1.toNat = syn ∧ r.out = seqValue data := by
  obtain ⟨-, hmax⟩ := Config.nMax_bounds
  have hr : rdec n ≤ 16 := rdec_le_16 n (by omega)
  have hsyn : syn < 2 ^ 16 :=
    Nat.lt_of_lt_of_le (dec_syndrome_lt hdec) (Nat.pow_le_pow_right (by decide) (by simpa using hr))
  obtain ⟨hst, hclean, hoc, hpbit, hrf, -, hlen⟩ := respond_fields (decodeFields n data syn oc)
    (Nat.lt_of_le_of_lt hr (by decide)) (show n - rdec n < 65536 by omega)
  rw [instrResponse_decode_of_dec hn hdec]
  refine ⟨hst, ?_, hoc, hpbit, hrf, hlen, ?_, rfl⟩
  · rw [hclean, ofBool_eq_one_iff]
    exact decide_eq_true_iff
  · rw [respond_res1, BitVec.toNat_ofNat]
    exact Nat.mod_eq_of_lt (Nat.lt_trans hsyn (by decide))

/-- The bits of a vector below n, as a value (20 R43). -/
theorem seqValue_operand_eq_mod (v n : Nat) : seqValue (operand v n) = v % 2 ^ n :=
  Nat.eq_of_testBit_eq fun i => by rw [testBit_seqValue, elem_operand, Nat.testBit_mod_two_pow]

/-- The vector of a sequence with bit i flipped carries the sequence with index i flipped (43 R143). -/
theorem operand_seqValue_xor_two_pow (c : BitSeq) {i : Nat} (hi : i < c.length) :
    operand (seqValue c ^^^ 2 ^ i) c.length = flipAt c i := by
  refine seq_ext _ _ (by simp) fun j hj => ?_
  rw [length_operand] at hj
  rw [elem_operand, elem_flipAt c i j hi, Nat.testBit_xor, testBit_seqValue, Nat.testBit_two_pow, decide_eq_true hj,
    Bool.true_and]
  simp only [eq_comm]

/-- A data length up to K_MAX has a codeword that fits the block (00 R7). -/
theorem add_pcount_le_nMax {k : Nat} (hk : k ≤ kMaxFor Config.nMax) : k + pcount k ≤ Config.nMax := by
  obtain ⟨hlo, -⟩ := Config.nMax_bounds
  exact Nat.not_lt.mp fun h => Nat.not_lt.mpr hk ((lt_add_pcount_iff_kMaxFor_lt _ k (by omega)).mp h)

/-- What ENCODE shows of a length it accepts: the codeword on OUT and its length in OUT_LEN (42 R114). -/
theorem encodeResponse_out {k : Nat} (inp : Nat) (hk : k + pcount k ≤ Config.nMax) :
    let r := instrResponse Config.nMax (.encode k) inp
    (outLenField r).toNat = k + pcount k ∧ r.out = seqValue (enc (operand inp k)) := by
  obtain ⟨-, hmax⟩ := Config.nMax_bounds
  have hr : pcount k ≤ 17 := pcount_le_17 k (by omega)
  obtain ⟨-, -, -, -, -, -, hlen⟩ :=
    respond_fields { r := pcount k, outLen := k + pcount k, out := enc (operand inp k) }
      (Nat.lt_of_le_of_lt hr (by decide)) (Nat.lt_succ_of_le (Nat.le_trans hk hmax))
  rw [instrResponse, encodeResponse_of_le inp hk]
  exact ⟨hlen, rfl⟩

/-- Settles O39: the vector handed back carries the codeword with no or one index flipped, whose DEC is known, and the
response of DECODE shows DEC's triple. -/
theorem machineRoundTripCorrectsOneError : Obligations.MachineRoundTripCorrectsOneError := by
  intro k s1 s2 sent received hk hs1 hs2
  have hfit : k + pcount k ≤ Config.nMax := add_pcount_le_nMax hk
  obtain ⟨hlen, hout⟩ := encodeResponse_out sent.inp hfit
  refine answers_exec _ s1 sent _ hs1 fun flips hflips hinp => ?_
  rw [hlen] at hflips ⊢
  rw [hout] at hinp
  refine answers_exec _ s2 received _ hs2 ?_
  have hword : (enc (operand sent.inp k)).length = k + pcount k := by rw [length_enc, length_operand]
  have hk' : k + pcount k - rdec (k + pcount k) = k := by rw [rdec_add_pcount, Nat.add_sub_cancel]
  rcases hflips with rfl | ⟨i, hi, rfl⟩
  · have hdec : dec (operand received.inp (k + pcount k)) = (operand sent.inp k, 0, .clean) := by
      rw [hinp, Nat.xor_zero, ← hword, operand_seqValue, decodeOfEncodeIsTheData]
    obtain ⟨hst, hclean, hoc, -, -, hl, hres1, ho⟩ := decodeResponse_fields hfit hdec
    exact ⟨hst, ho.trans (seqValue_operand_eq_mod _ _), hl.trans hk', iff_of_true (hclean.mpr rfl) rfl,
      fun _ => ⟨BitVec.eq_of_toNat_eq hres1, hoc⟩, fun j hj => absurd hj.symm (Nat.two_pow_pos j).ne'⟩
  · have hdec : dec (operand received.inp (k + pcount k)) = (operand sent.inp k, i + 1, .corrected) := by
      rw [hinp, ← hword, operand_seqValue_xor_two_pow _ (hword ▸ hi), anySingleErrorIsCorrected _ _ (hword ▸ hi)]
    have hflip : 2 ^ i ≠ 0 := (Nat.two_pow_pos i).ne'
    obtain ⟨hst, hclean, hoc, -, -, hl, hres1, ho⟩ := decodeResponse_fields hfit hdec
    refine ⟨hst, ho.trans (seqValue_operand_eq_mod _ _), hl.trans hk',
      iff_of_false (fun h => Nat.succ_ne_zero i (hclean.mp h)) hflip, fun h => absurd h hflip, fun j hj => ?_⟩
    obtain rfl : i = j := Nat.pow_right_injective (Nat.le_refl 2) hj
    exact ⟨hres1, hoc⟩

end Sys2Proof.Machine
end

section
/-! The decoder's parity count (43 R130, R142). -/

namespace Sys2Proof.Machine

theorem lt_rdec_iff {n q : Nat} : q < rdec n ↔ 2 ^ q ≤ n := by
  rw [← Nat.not_le, rdec_le_iff]
  omega

/-- The lengths of one count q + 1 (43 R130). -/
theorem rdec_eq_succ_of_range (q : Nat) {n : Nat} (hlo : 2 ^ q ≤ n) (hhi : n ≤ 2 ^ (q + 1) - 1) : rdec n = q + 1 :=
  Nat.le_antisymm (rdec_le_iff.mpr (Nat.add_le_of_le_sub (Nat.two_pow_pos _) hhi)) (lt_rdec_iff.mpr hlo)

/-- The powers of two up to n are those of the exponents below RDEC(n) (43 R130). -/
theorem filter_two_pow_eq_image (n : Nat) :
    (Finset.Icc 1 n).filter (fun m => ∃ q ≤ n, m = 2 ^ q) = (Finset.range (rdec n)).image (2 ^ ·) := by
  ext m
  simp only [Finset.mem_filter, Finset.mem_Icc, Finset.mem_image, Finset.mem_range, lt_rdec_iff]
  constructor
  · rintro ⟨⟨-, hm⟩, q, -, rfl⟩
    exact ⟨q, hm, rfl⟩
  · rintro ⟨q, hq, rfl⟩
    exact ⟨⟨Nat.two_pow_pos q, hq⟩, q, Nat.le_trans Nat.lt_two_pow_self.le hq, rfl⟩

/-- Settles O27: the threshold form gives the least count, the logarithm and the ranges, and the powers of two up to n are
counted by their exponents. -/
theorem rdecIsTheLeastCount : Obligations.RdecIsTheLeastCount := by
  refine ⟨rdec_isLeast, fun _ => rdec_eq_log, fun n => ?_, by decide, by decide, fun _ => rdec_eq_succ_of_range 1,
    fun _ => rdec_eq_succ_of_range 2, fun _ => rdec_eq_succ_of_range 3, fun _ => rdec_eq_succ_of_range 4,
    fun _ => rdec_eq_succ_of_range 5, fun _ => rdec_eq_succ_of_range 6, fun _ => rdec_eq_succ_of_range 7,
    fun _ => rdec_eq_succ_of_range 15⟩
  rw [filter_two_pow_eq_image, Finset.card_image_of_injective _ (Nat.pow_right_injective (Nat.le_refl 2)),
    Finset.card_range]

/-- Settles O28, by the count of a codeword length. -/
theorem decoderRecoversTheParityCount : Obligations.DecoderRecoversTheParityCount := rdec_add_pcount

end Sys2Proof.Machine
end

section
/-! The syndrome by its bits and as the XOR of positions (43 R131, R140), and the lengths that can be uncorrectable
(43 R145). -/

namespace Sys2Proof.Machine

/-- A last bit brings its 1-based index (43 R140). -/
theorem xorOfPositions_append (c : BitSeq) (b : Bool) :
    xorOfPositions (c ++ [b]) = if b then xorOfPositions c ^^^ (c.length + 1) else xorOfPositions c := by
  have hinit : (List.range c.length).foldl (fun acc i => if elem (c ++ [b]) i then acc ^^^ (i + 1) else acc) 0 =
      xorOfPositions c :=
    List.foldl_ext _ _ _ fun acc i hi => by rw [elem_append_left c [b] i (List.mem_range.mp hi)]
  rw [xorOfPositions, List.length_append, List.length_singleton, List.range_succ, List.foldl_append, hinit,
    List.foldl_cons, List.foldl_nil, elem_append_length]

/-- Bit p of the XOR of positions is the XOR over the covering set of p (43 R140). -/
theorem testBit_xorOfPositions (c : BitSeq) (p : Nat) :
    (xorOfPositions c).testBit p = xorSum (fun i => covers p i && elem c i) c.length := by
  induction c using List.reverseRecOn with
  | nil => exact Nat.zero_testBit p
  | append_singleton c b ih =>
    rw [List.length_append, List.length_singleton, xorSum_succ, elem_append_length, xorOfPositions_append,
      xorSum_congr fun i hi => by rw [elem_append_left c [b] i hi], ← ih]
    cases b with
    | false => simp
    | true => simp [covers]

theorem syndrome_eq_xorOfPositions (c : BitSeq) : syndrome c = xorOfPositions c :=
  Nat.eq_of_testBit_eq fun p => by rw [testBit_syndrome_eq_xorSum, testBit_xorOfPositions]

/-- Settles O29, from the bits of the two sides as XOR sums over the covering sets. -/
theorem syndromeIsXorOfPositions : Obligations.SyndromeIsXorOfPositions := by
  refine fun c => ⟨syndrome_eq_xorOfPositions c, fun p => ?_, fun i => syndrome_flipAt c⟩
  rw [testBit_syndrome_eq_xorSum, oddCount_eq_xorSum]
  rfl

/-- Settles O30, from what the syndrome loop leaves and the slots that exist. -/
theorem syndromeBitsAreTheChecks : Obligations.SyndromeBitsAreTheChecks :=
  fun c => ⟨testBit_syndrome c, syndrome_lt_two_pow_rdec c, fun _ => (indexCheckAdmitsTheSlotsThatExist _ _).mp⟩

/-- At a length 2^r - 1 every syndrome names an index or is 0 (43 R145). -/
theorem syndrome_le_length_of_eq_two_pow_sub_one {c : BitSeq} {r : Nat} (h : c.length = 2 ^ r - 1) :
    syndrome c ≤ c.length := by
  have hlen : c.length + 1 = 2 ^ r := by rw [h, Nat.sub_add_cancel (Nat.two_pow_pos r)]
  have hr : rdec c.length ≤ r := rdec_le_iff.mpr hlen.le
  have hpow : 2 ^ rdec c.length ≤ 2 ^ r := Nat.pow_le_pow_right (by decide) hr
  have hs : syndrome c < 2 ^ rdec c.length := syndrome_lt_two_pow_rdec c
  omega

theorem outcomeOf_eq_uncorrectable_iff (s n : Nat) : outcomeOf s n = .uncorrectable ↔ n < s := by
  unfold outcomeOf
  split_ifs <;> simp <;> omega

/-- Settles O37: UNCORRECTABLE is a syndrome above the length, and the syndrome has RDEC(n) bits. -/
theorem uncorrectableNeedsAShortenedLength : Obligations.UncorrectableNeedsAShortenedLength := by
  refine ⟨fun c hunc => ?_, fun c r => syndrome_le_length_of_eq_two_pow_sub_one⟩
  rw [dec_eq] at hunc
  have habove : c.length < syndrome c := (outcomeOf_eq_uncorrectable_iff _ _).mp hunc
  have hs : syndrome c < 2 ^ rdec c.length := syndrome_lt_two_pow_rdec c
  refine ⟨by omega, fun r hr => ?_⟩
  exact Nat.not_le.mpr habove (syndrome_le_length_of_eq_two_pow_sub_one hr)

end Sys2Proof.Machine
end

section
/-! The locator, the corrector and the extractor (43 R132, R133, R136), and the completion of DECODE (43 R139, 30 R71). -/

namespace Sys2Proof.Machine

/-- The locator names index i for syndrome i + 1 and a length above i (43 R132). -/
theorem locate_eq_some_iff (s n i : Nat) : locate s n = some i ↔ i + 1 = s ∧ i < n := by
  unfold locate
  split_ifs <;> simp <;> omega

/-- The corrector inverts the index whose 1-based position is the syndrome (43 R133). -/
theorem elem_decodeWork_w {c : BitSeq} {i : Nat} (hi : i < c.length) :
    elem (decodeWork c).w i = (elem c i ^^ decide (i + 1 = syndrome c)) := by
  obtain ⟨-, -, hw⟩ := decodeWork_eq c
  rw [hw]
  split
  · next h =>
    obtain ⟨hpos, hle⟩ := h
    have hself : i = syndrome c - 1 ↔ i + 1 = syndrome c := by omega
    rw [elem_flipAt _ _ _ (by omega), decide_eq_decide.mpr hself]
  · next h =>
    have hne : i + 1 ≠ syndrome c := fun heq => h ⟨by omega, by omega⟩
    rw [decide_eq_false hne, Bool.xor_false]

/-- Settles O31, from the working state in terms of the syndrome. -/
theorem correctorFlipsAtMostTheLocatedBit : Obligations.CorrectorFlipsAtMostTheLocatedBit := by
  refine ⟨fun s n => ?_, fun c => ?_⟩
  · rcases Nat.eq_zero_or_pos s with rfl | hpos
    · rfl
    · simp [locate, hpos.ne', Nat.succ_le_of_lt hpos]
  · obtain ⟨hs, hn, -⟩ := decodeWork_eq c
    refine ⟨hs, hn, length_decodeWork_w c, fun i hi => ?_, dec_eq c⟩
    rw [elem_decodeWork_w hi]
    simp only [locate_eq_some_iff, hi, and_true]

/-- The extractor keeps one bit per data slot (43 R136). -/
theorem length_extract_eq_dataSlotsBelow (w : BitSeq) : (extract w).length = dataSlotsBelow w.length := by
  rw [extract_eq, List.length_map, length_filter_isDataSlot]

theorem dataIndex_lt_length_extract {w : BitSeq} {i : Nat} (hi : i < w.length) (hdata : isDataSlot i = true) :
    dataIndex i < (extract w).length := by
  rw [length_extract_eq_dataSlotsBelow]
  exact dataIndex_lt_dataSlotsBelow hi hdata

/-- Settles O32, from the rank of a data slot among the data slots. -/
theorem extractorCollectsTheDataSlots : Obligations.ExtractorCollectsTheDataSlots :=
  fun w => ⟨length_extract w, fun _ hi hdata => ⟨dataIndex_lt_length_extract hi hdata, elem_extract hi hdata⟩⟩

theorem outcomeCode_outcomeOf_toNat (s n : Nat) :
    (outcomeCode (outcomeOf s n)).toNat = if s = 0 then 1 else if s ≤ n then 2 else 3 := by
  unfold outcomeOf
  split_ifs <;> rfl

/-- Settles O33, from the fields of the response: the corrected copy differs from IN at the position the syndrome names. -/
theorem decodeCompletes : Obligations.DecodeCompletes := by
  intro n s held hn hs
  refine answers_exec _ s held _ hs ?_
  have hdec := dec_eq (operand held.inp n)
  rw [length_operand, syndrome_eq_xorOfPositions] at hdec
  obtain ⟨hst, hclean, hoc, hpbit, hr, hlen, hres1, hout⟩ := decodeResponse_fields hn hdec
  have hext : (extract (decodeWork (operand held.inp n)).w).length = n - rdec n := by simp
  have hrn : rdec n ≤ n := by
    have hsum : dataSlotsBelow n + rdec n = n := dataSlotsBelow_add_rdec n
    omega
  simp only [hr, hlen, hout, testBit_seqValue]
  refine ⟨hst, hres1, hclean, ?_, rdec_isLeast n, Nat.sub_add_cancel hrn, ?_, fun i hi hpow => ?_, hpbit⟩
  · rw [hoc, outcomeCode_outcomeOf_toNat]
  · exact hext ▸ seqValue_lt _
  · have hdata : isDataSlot i = true := decide_eq_true fun hz => hpow ((and_succ_eq_zero_iff i).mp hz)
    have hw : i < (decodeWork (operand held.inp n)).w.length := by simpa using hi
    refine ⟨hext ▸ dataIndex_lt_length_extract hw hdata, ?_⟩
    rw [elem_extract hw hdata, elem_decodeWork_w (by simpa using hi), elem_operand, decide_eq_true hi, Bool.true_and,
      syndrome_eq_xorOfPositions]

end Sys2Proof.Machine
end

section
/-! Several flips (43 R144). -/

namespace Sys2Proof.Machine

@[simp] theorem length_foldl_flipAt (c : BitSeq) (is : List Nat) : (is.foldl flipAt c).length = c.length := by
  induction is generalizing c with
  | nil => rfl
  | cons i is ih => rw [List.foldl_cons, ih, length_flipAt]

/-- Each flip XORs its 1-based index into the syndrome (43 R140). -/
theorem syndrome_foldl_flipAt (c : BitSeq) (is : List Nat) (hrange : ∀ i ∈ is, i < c.length) :
    syndrome (is.foldl flipAt c) = is.foldl (fun acc i => acc ^^^ (i + 1)) (syndrome c) := by
  induction is generalizing c with
  | nil => rfl
  | cons i is ih =>
    obtain ⟨hi, hrest⟩ := List.forall_mem_cons.mp hrange
    rw [List.foldl_cons, List.foldl_cons, ih _ (by rwa [length_flipAt]), syndrome_flipAt c hi]

/-- Flips at distinct indices invert exactly those indices. -/
theorem elem_foldl_flipAt (c : BitSeq) {is : List Nat} (hnodup : is.Nodup) (hrange : ∀ i ∈ is, i < c.length) (j : Nat) :
    elem (is.foldl flipAt c) j = (elem c j ^^ decide (j ∈ is)) := by
  induction is generalizing c with
  | nil => simp
  | cons i is ih =>
    obtain ⟨hi, hrest⟩ := List.forall_mem_cons.mp hrange
    obtain ⟨hnew, hnodup'⟩ := List.nodup_cons.mp hnodup
    rw [List.foldl_cons, ih _ hnodup' (by rwa [length_flipAt]), elem_flipAt c i j hi]
    rcases eq_or_ne j i with rfl | hne
    · simp [hnew]
    · simp [hne]

/-- Words that differ at a data slot have different extractions (43 R136). -/
theorem extract_ne_of_elem_ne {c e : BitSeq} {i : Nat} (hlen : c.length = e.length) (hi : i < c.length)
    (hdata : isDataSlot i = true) (hne : elem c i ≠ elem e i) : extract c ≠ extract e := by
  intro h
  apply hne
  rw [← elem_extract hi hdata, ← elem_extract (hlen ▸ hi) hdata, h]

/-- Settles O36: the syndrome of the flipped word is the XOR of the flipped positions, DEC follows it, and a flipped data
slot is a wrong data bit when nothing is corrected. -/
theorem severalErrorsGiveTheLiteralResult : Obligations.SeveralErrorsGiveTheLiteralResult := by
  intro d is _ hnodup hrange word s
  have hs : syndrome word = s := by rw [syndrome_foldl_flipAt _ _ hrange, syndrome_enc]
  have hlen : word.length = (enc d).length := length_foldl_flipAt _ _
  refine ⟨hs, fun h0 => dec_of_syndrome_eq_zero (hs.trans h0), fun h0 ⟨i, hmem, hdata⟩ => ?_, fun hpos hle => ?_,
    fun hlt => ?_⟩
  · have hflip : elem word i ≠ elem (enc d) i := by simp [word, elem_foldl_flipAt _ hnodup hrange, hmem]
    rw [dec_of_syndrome_eq_zero (hs.trans h0)]
    have hne : extract word ≠ extract (enc d) := extract_ne_of_elem_ne hlen (hlen ▸ hrange i hmem) hdata hflip
    rwa [extract_enc] at hne
  · have hdec := dec_of_syndrome_eq_succ (c := word) (q := s - 1) (by omega) (by omega)
    rwa [Nat.sub_add_cancel hpos] at hdec
  · rw [← hs] at hlt ⊢
    exact dec_of_length_lt_syndrome (hlen ▸ hlt)

end Sys2Proof.Machine
end

section
/-! No step stops (60 R160, 70 R199), and the status of a command (60 R161..R163). -/

namespace Sys2Proof.Machine

/-- The block's move in READY with nothing on the port does nothing (log entry 12). -/
theorem step_ready_of_no_offer (s : State) (hp : s.phase = .ready) (hc : s.cmdPort = none) (hn : BlockNext s) :
    step s = .next { s with moves := s.moves.tail } := by
  rw [step_of_blockNext s hn]
  simp [planBlock, planOutcome, hp, hc]

/-- Settles O44: whoever moves, a step is one of the moves of `StepMove`, all of which are next states. -/
theorem noStepEverStops : Obligations.NoStepEverStops :=
  ⟨fun s => (step_cases s).imp fun _ ⟨ht, _⟩ => ht, step_ready_of_no_offer⟩

/-- STATUS is read back from the lowest bits of RES0, whatever the other fields hold (30 R66). -/
theorem statusField_respond (f : ResultFields) : statusField (respond f) = statusCode f.status := by
  have hword := packRes0_toNat f
  have hcode : (statusCode f.status).toNat < 4 := (statusCode f.status).isLt
  apply BitVec.eq_of_toNat_eq
  rw [statusField, extractField_toNat, respond_res0]
  omega

theorem statusField_errorResponse (st : Status) : statusField (errorResponse st) = statusCode st :=
  (errorResponse_fields st).1

/-- The first cause that turns a decoded command away, in the order of 60 R162. -/
def instrStatus (nMax : Nat) : Instr → Status
  | .pcount _ => .ok
  | .peval p n => if nMax < n then .badLength else if rdec n ≤ p then .badIndex else .ok
  | .encode k => if kMaxFor nMax < k then .badLength else .ok
  | .decode n => if nMax < n then .badLength else .ok

/-- A decoded command answers with the status of its first cause (60 R161, R162). -/
theorem statusField_instrResponse {nMax : Nat} (hm : 1 ≤ nMax) (i : Instr) (inp : Nat) :
    statusField (instrResponse nMax i inp) = statusCode (instrStatus nMax i) := by
  cases i with
  | pcount k => exact statusField_respond _
  | peval p n =>
    rw [instrResponse, pevalResponse, instrStatus]
    split_ifs
    · exact statusField_errorResponse _
    · exact statusField_errorResponse _
    · exact statusField_respond _
  | encode k =>
    simp only [instrResponse, encodeResponse, instrStatus, lt_add_pcount_iff_kMaxFor_lt nMax k hm]
    split_ifs
    · exact statusField_errorResponse _
    · exact statusField_respond _
  | decode n =>
    rw [instrResponse, decodeResponse, instrStatus]
    split_ifs
    · exact statusField_errorResponse _
    · exact statusField_respond _

/-- The first cause that turns a command word away, from its fields, in the order of 60 R162. -/
def wordStatus (nMax : Nat) (cmd : Word) : Status :=
  let op := cmd.toNat % 4
  let pidx := cmd.toNat / 256 % 256
  let len := cmd.toNat / 65536
  if cmd.toNat / 4 % 64 ≠ 0 ∨ (pidx ≠ 0 ∧ op ≠ 1) then .badCommand
  else if (op = 2 ∧ kMaxFor nMax < len) ∨ ((op = 1 ∨ op = 3) ∧ nMax < len) then .badLength
  else if op = 1 ∧ rdec len ≤ pidx then .badIndex
  else .ok

theorem wordStatus_of_badCommand {nMax : Nat} {cmd : Word} {why : BadCommand} (h : decode cmd = .badCommand why) :
    wordStatus nMax cmd = .badCommand := by
  rw [decode_eq_of_toNat] at h
  split_ifs at h with hrsv hpidx
  · exact if_pos (.inl hrsv)
  · exact if_pos (.inr hpidx.symm)

theorem wordStatus_of_decode {nMax : Nat} {cmd : Word} {i : Instr} (h : decode cmd = .instr i) :
    wordStatus nMax cmd = instrStatus nMax i := by
  rw [decode_eq_of_toNat] at h
  split_ifs at h with hrsv hpidx hop0 hop1 hop2 <;> cases h
  · have hpidx0 : cmd.toNat / 256 % 256 = 0 := by omega
    simp [wordStatus, instrStatus, hrsv, hpidx0, hop0]
  · simp [wordStatus, instrStatus, hrsv, hop1]
  · have hpidx0 : cmd.toNat / 256 % 256 = 0 := by omega
    simp [wordStatus, instrStatus, hrsv, hpidx0, hop2]
  · have hpidx0 : cmd.toNat / 256 % 256 = 0 := by omega
    have hop3 : cmd.toNat % 4 = 3 := by omega
    simp [wordStatus, instrStatus, hrsv, hpidx0, hop3]

/-- Every command answers with the status of the first cause in its word (60 R161, R162). -/
theorem statusField_responseTo (c : Command) :
    statusField (responseTo c) = statusCode (wordStatus Config.nMax c.cmd) := by
  cases h : decode c.cmd with
  | instr i =>
    have hm : 1 ≤ Config.nMax := Nat.le_trans (by decide) Config.nMax_bounds.1
    rw [responseTo_of_decode h, statusField_instrResponse hm, wordStatus_of_decode h]
  | badCommand why => rw [responseTo_of_badCommand h, statusField_errorResponse, wordStatus_of_badCommand h]

/-- A well-formed response with an error status is all zero but for STATUS, field by field (60 R163). -/
theorem ResponseWf.error_fields {r : Response} (h : ResponseWf r) (hst : statusField r ≠ 0#2) :
    r.res0 = (statusField r).setWidth 32 ∧ cleanField r = 0#1 ∧ outcomeField r = 0#2 ∧ pbitField r = 0#1 ∧
    rField r = 0#5 ∧ outLenField r = 0#16 ∧ r.res1 = 0#32 ∧ r.out = 0 := by
  obtain ⟨hres0, hres1, hout⟩ := h.errorZero hst
  have hzext : ∀ st : BitVec 2, (st.setWidth 32).extractLsb' 2 1 = 0#1 ∧ (st.setWidth 32).extractLsb' 3 2 = 0#2 ∧
      (st.setWidth 32).extractLsb' 5 1 = 0#1 ∧ (st.setWidth 32).extractLsb' 6 5 = 0#5 := by decide
  obtain ⟨hclean, hoc, hpbit, hr⟩ := hzext (statusField r)
  rw [← hres0] at hclean hoc hpbit hr
  exact ⟨hres0, hclean, hoc, hpbit, hr, h.outLenField_of_error hst, hres1, hout⟩

/-- Settles O40: the block's move delivers the response to the held command, which has the status of its first cause and is
well formed. -/
theorem statusIsTheFirstCause : Obligations.StatusIsTheFirstCause := by
  intro s c hp hn
  refine ⟨_, responseTo c, step_busy s c hp hn, ⟨?_, (responseWf_responseTo c).error_fields⟩, rfl, rfl, rfl, rfl, rfl⟩
  rw [statusField_responseTo, wordStatus]
  split_ifs <;> rfl

end Sys2Proof.Machine
end

section
/-! Hazards (70 R190..R199): what a step from BUSY can do, a reset, the host's read of the port, and the answer after any
finite delay. -/

namespace Sys2Proof.Machine

/-- A step that ends in a state is one of the moves of `StepMove` to that state. -/
theorem StepMove.of_step {s t : State} (h : step s = .next t) : StepMove s t := by
  obtain ⟨u, hu, hmove⟩ := step_cases s
  obtain rfl : u = t := by simpa [hu] using h
  exact hmove

/-- Settles O48: a move of the block delivers the response to the held command, idle time and the moves of the host leave
BUSY as it is, and a reset discards the command. -/
theorem busyAcceptsNoCommand : Obligations.BusyAcceptsNoCommand := by
  intro s t held hp hstep
  have delivered (hn : BlockNext s) : t = deliver (responseTo held) { s with moves := s.moves.tail } := by
    simpa [hstep] using step_busy s held hp hn
  cases StepMove.of_step hstep with
  | blockAlone hm => exact delivered (.inl (by rw [hm]; rfl)) ▸ .inr ⟨rfl, rfl, .inl ⟨rfl, rfl⟩⟩
  | blockScheduled rest hm => exact delivered (.inr (by rw [hm]; rfl)) ▸ .inr ⟨rfl, rfl, .inl ⟨rfl, rfl⟩⟩
  | idle rest _ ht => exact ht ▸ .inl ⟨hp, rfl, rfl⟩
  | presents c rest _ ht => exact ht ▸ .inl ⟨hp, rfl, rfl⟩
  | withdraws rest _ ht => exact ht ▸ .inl ⟨hp, rfl, rfl⟩
  | resets rest hm ht => exact ht ▸ .inr ⟨rfl, rfl, .inr ⟨rfl, rfl, by rw [hm]; rfl⟩⟩

/-- A reset move resets the block, whatever it was doing (70 R190). -/
theorem step_reset (s : State) (rest : List Move) (hm : s.moves = .reset :: rest) :
    step s = .next (resetBlock { s with moves := rest }) := by
  rw [step_eq, planStep, hm, planOutcome]

/-- The host's read of a port that shows a response answers it (70 R192). -/
theorem readResponse_of_some {s : State} {r : Response} (h : s.respPort = some r) : readResponse s = .next r := by
  rw [readResponse, h]

/-- The host's read of a port that shows no response is a host error (70 R192, 93 I7). -/
theorem readResponse_of_none {s : State} (h : s.respPort = none) : readResponse s = .fault .responseUndefined := by
  rw [readResponse, h]

/-- Settles O49: the reset move leaves the port without a response, and a read answers what the port shows. -/
theorem resetDiscardsTheCommandInFlight : Obligations.ResetDiscardsTheCommandInFlight :=
  ⟨fun s rest hm => ⟨_, step_reset s rest hm, rfl, rfl, rfl, rfl, readResponse_of_none rfl⟩,
    fun _ _ => readResponse_of_some⟩

/-- A move that is neither quiet nor a reset is the block's. -/
theorem Move.eq_block_of_not_quiet {m : Move} (hq : m.isQuiet = false) (hr : m ≠ .reset) : m = .block := by
  cases m with
  | block => rfl
  | reset => exact absurd rfl hr
  | blockIdle => cases hq
  | present c => cases hq
  | withdraw => cases hq

/-- In a schedule without a reset, the block moves next once the quiet moves in front are used up. -/
theorem head?_dropWhile_isQuiet {ms : List Move} (hr : .reset ∉ ms) :
    (ms.dropWhile Move.isQuiet).head? = none ∨ (ms.dropWhile Move.isQuiet).head? = some .block := by
  cases hd : ms.dropWhile Move.isQuiet with
  | nil => exact .inl rfl
  | cons m rest =>
    have hquiet : m.isQuiet = false := by simpa [hd] using List.head?_dropWhile_not Move.isQuiet ms
    have hmem : m ∈ ms := (List.dropWhile_sublist Move.isQuiet).subset (hd ▸ List.mem_cons_self)
    exact .inr (congrArg some (Move.eq_block_of_not_quiet hquiet fun h => hr (h ▸ hmem)))

/-- A run over quiet moves and the block's move after them, scheduled or not, answers the held command (70 R199). -/
theorem runSteps_quiet_answer (ms rest : List Move) (s : State) (held : Command) (hp : s.phase = .busy held)
    (hq : ∀ m ∈ ms, m.isQuiet = true) (hm : s.moves = ms ++ rest)
    (hn : rest.head? = none ∨ rest.head? = some .block) :
    runSteps (ms.length + 1) s =
      .next (deliver (responseTo held) { s with moves := rest.tail, cmdPort := portAfter s.cmdPort ms }) := by
  have hanswer := step_busy { s with moves := rest, cmdPort := portAfter s.cmdPort ms } held hp hn
  rw [runSteps_quiet ms rest s 1 hq hm, runSteps_succ 0 _ _ hanswer, runSteps]

/-- Settles O50: the run goes over the quiet moves in front of the schedule, which leave the held command as it is, and the
block's move after them answers it. -/
theorem everyAcceptedCommandIsAnswered : Obligations.EveryAcceptedCommandIsAnswered := by
  intro s held hp hr
  have hrun := runSteps_quiet_answer (s.moves.takeWhile Move.isQuiet) _ s held hp (fun _ => List.mem_takeWhile_imp)
    List.takeWhile_append_dropWhile.symm (head?_dropWhile_isQuiet hr)
  have hlen := (List.takeWhile_sublist Move.isQuiet (l := s.moves)).length_le
  exact ⟨_, Nat.succ_le_succ hlen, _, hrun, rfl, rfl, rfl⟩

end Sys2Proof.Machine
end
